-- ==== Sys2Proof/Word.lean ====
section
/-!
DEFINITION. The machine's words: nibbles, bytes, 12-bit immediates and 16-bit words (spec rules R8, R20, R91).
Every value of this machine is unsigned (R8).
-/

namespace Sys2Proof

/-- Four bits: a register field, a row count, a key number (R91, R43). -/
abbrev Nibble := BitVec 4

/-- Eight bits: a general register, a memory byte, a timer, the immediate `NN` (R20, R27, R60, R91). -/
abbrev Byte := BitVec 8

/-- Twelve bits: the immediate `NNN` (R91). -/
abbrev Addr12 := BitVec 12

/-- Sixteen bits: `I`, `PC`, a stack slot, an instruction word (R23, R24, R29, R90). -/
abbrev Word := BitVec 16

/-- The 64×32 display plane `DISP[row][col]` (R42): column `c` of row `r` is bit `c` of element `r`. -/
abbrev Plane := Vector (BitVec 64) 32

end Sys2Proof
end

