-- ==== Sys2Proof/Syntax.lean ====
section
/-!
DEFINITION. The instructions as syntax: one constructor per row of the opcode map (rule R96), named after the row's
identifier. Fields are the ones of R91; nothing of the raw encoding is left, except the word an unmatched
instruction reports.
-/

namespace Sys2Proof

/-- The 34 instructions of R96 and the catch-all `NOP_UNMATCHED`. -/
inductive Instr where
  /-- 00E0 (R210). -/
  | cls
  /-- 00EE (R141). -/
  | ret
  /-- 1NNN (R142). -/
  | jp (nnn : Addr12)
  /-- 2NNN (R143). -/
  | call (nnn : Addr12)
  /-- 3XNN (R144). -/
  | seImm (x : Nibble) (nn : Byte)
  /-- 4XNN (R145). -/
  | sneImm (x : Nibble) (nn : Byte)
  /-- 5XY0 (R146). -/
  | seReg (x y : Nibble)
  /-- 6XNN (R161). -/
  | ldImm (x : Nibble) (nn : Byte)
  /-- 7XNN (R162). -/
  | addImm (x : Nibble) (nn : Byte)
  /-- 8XY0 (R163). -/
  | ldReg (x y : Nibble)
  /-- 8XY1 (R164). -/
  | or (x y : Nibble)
  /-- 8XY2 (R165). -/
  | and (x y : Nibble)
  /-- 8XY3 (R166). -/
  | xor (x y : Nibble)
  /-- 8XY4 (R167). -/
  | addReg (x y : Nibble)
  /-- 8XY5 (R168). -/
  | sub (x y : Nibble)
  /-- 8XY6 (R169); `y` is carried and ignored (R99). -/
  | shr (x y : Nibble)
  /-- 8XY7 (R170). -/
  | subn (x y : Nibble)
  /-- 8XYE (R171). -/
  | shl (x y : Nibble)
  /-- 9XY0 (R147). -/
  | sneReg (x y : Nibble)
  /-- ANNN (R190). -/
  | ldIndex (nnn : Addr12)
  /-- BNNN (R148). -/
  | jpV0 (nnn : Addr12)
  /-- CXNN (R172). -/
  | rnd (x : Nibble) (nn : Byte)
  /-- DXYN (R211 to R213). -/
  | drw (x y n : Nibble)
  /-- EX9E (R230). -/
  | skp (x : Nibble)
  /-- EXA1 (R231). -/
  | sknp (x : Nibble)
  /-- FX07 (R232). -/
  | ldVxDt (x : Nibble)
  /-- FX0A (R233, R234). -/
  | ldVxKey (x : Nibble)
  /-- FX15 (R235). -/
  | ldDtVx (x : Nibble)
  /-- FX18 (R236). -/
  | ldStVx (x : Nibble)
  /-- FX1E (R191). -/
  | addIndex (x : Nibble)
  /-- FX29 (R192). -/
  | ldFont (x : Nibble)
  /-- FX33 (R193). -/
  | bcd (x : Nibble)
  /-- FX55 (R194). -/
  | storeRegs (x : Nibble)
  /-- FX65 (R195). -/
  | loadRegs (x : Nibble)
  /-- Any word that fits no pattern (R97, R124), carrying that word for `Warn`. -/
  | nopUnmatched (w : Word)
  deriving DecidableEq, Repr

end Sys2Proof
end

