-- ==== Sys2Proof/WellFormed.lean ====
section
/-!
DEFINITION. Which instructions as syntax some word encodes. Every field has the width R91 gives it by its type, so
the one check left is that an unmatched instruction carries one of the unmatched words listed in rule R97.
-/

namespace Sys2Proof

/-- The unmatched words, family by family, as R97 lists them (a list of its own, independent of the decoder). -/
def unmatchedWord (w : Word) : Bool :=
  let family := w.toNat / 4096
  let n := w.toNat % 16
  let nn := w.toNat % 256
  (family == 0 && w != 0x00E0 && w != 0x00EE) ||
  ((family == 5 || family == 9) && n != 0) ||
  (family == 8 && [0x8, 0x9, 0xA, 0xB, 0xC, 0xD, 0xF].contains n) ||
  (family == 0xE && nn != 0x9E && nn != 0xA1) ||
  (family == 0xF && !([0x07, 0x0A, 0x15, 0x18, 0x1E, 0x29, 0x33, 0x55, 0x65].contains nn))

/-- The well-formed instructions: exactly those some 16-bit word encodes. -/
def WellFormed : Instr → Bool
  | .nopUnmatched w => unmatchedWord w
  | .cls | .ret => true
  | .jp _ | .call _ | .ldIndex _ | .jpV0 _ => true
  | .seImm _ _ | .sneImm _ _ | .ldImm _ _ | .addImm _ _ | .rnd _ _ => true
  | .seReg _ _ | .sneReg _ _ | .ldReg _ _ | .or _ _ | .and _ _ | .xor _ _ => true
  | .addReg _ _ | .sub _ _ | .shr _ _ | .subn _ _ | .shl _ _ => true
  | .drw _ _ _ => true
  | .skp _ | .sknp _ => true
  | .ldVxDt _ | .ldVxKey _ | .ldDtVx _ | .ldStVx _ => true
  | .addIndex _ | .ldFont _ | .bcd _ | .storeRegs _ | .loadRegs _ => true

end Sys2Proof
end

