-- ==== Sys2Proof/Decode.lean ====
section
/-!
DEFINITION. The nibble decoder and the two-level dispatch (rules R90 to R97), total on every byte list, and after
it the encoder, written from the same encoding table (R96).
-/

namespace Sys2Proof

/-- Why a byte list holds no instruction. No pair of bytes is refused (R93). -/
inductive DecodeError where
  /-- Fewer than the two bytes every instruction has (R90). -/
  | truncated
  deriving DecidableEq, Repr

/-! ### The fields of R91 -/

/-- `instr = W[15:12]`, the primary opcode nibble. -/
def fieldInstr (w : Word) : Nibble := w.extractLsb' 12 4

/-- `X = W[11:8]`. -/
def fieldX (w : Word) : Nibble := w.extractLsb' 8 4

/-- `Y = W[7:4]`. -/
def fieldY (w : Word) : Nibble := w.extractLsb' 4 4

/-- `N = W[3:0]`. -/
def fieldN (w : Word) : Nibble := w.extractLsb' 0 4

/-- `NN = W[7:0]`. -/
def fieldNN (w : Word) : Byte := w.extractLsb' 0 8

/-- `NNN = W[11:0]`. -/
def fieldNNN (w : Word) : Addr12 := w.extractLsb' 0 12

/-! ### Dispatch (R95, R96): the families that look below the primary nibble, then the primary nibble -/

/-- Family 0: 00E0 and 00EE match one word each (R95). -/
def decode0 (w : Word) : Instr :=
  if fieldNNN w = 0x0E0 then .cls
  else if fieldNNN w = 0x0EE then .ret
  else .nopUnmatched w

/-- Family 5: the last digit of 5XY0 is checked (R95, R146; log 14). -/
def decode5 (w : Word) : Instr :=
  if fieldN w = 0x0 then .seReg (fieldX w) (fieldY w) else .nopUnmatched w

/-- Family 8, by `N`. -/
def decode8 (w : Word) : Instr :=
  let x := fieldX w
  let y := fieldY w
  let n := fieldN w
  if n = 0x0 then .ldReg x y
  else if n = 0x1 then .or x y
  else if n = 0x2 then .and x y
  else if n = 0x3 then .xor x y
  else if n = 0x4 then .addReg x y
  else if n = 0x5 then .sub x y
  else if n = 0x6 then .shr x y
  else if n = 0x7 then .subn x y
  else if n = 0xE then .shl x y
  else .nopUnmatched w

/-- Family 9: the last digit of 9XY0 is checked (R95, R147; log 14). -/
def decode9 (w : Word) : Instr :=
  if fieldN w = 0x0 then .sneReg (fieldX w) (fieldY w) else .nopUnmatched w

/-- Family E, by `NN`. -/
def decodeE (w : Word) : Instr :=
  let nn := fieldNN w
  if nn = 0x9E then .skp (fieldX w)
  else if nn = 0xA1 then .sknp (fieldX w)
  else .nopUnmatched w

/-- Family F, by `NN`. -/
def decodeF (w : Word) : Instr :=
  let x := fieldX w
  let nn := fieldNN w
  if nn = 0x07 then .ldVxDt x
  else if nn = 0x0A then .ldVxKey x
  else if nn = 0x15 then .ldDtVx x
  else if nn = 0x18 then .ldStVx x
  else if nn = 0x1E then .addIndex x
  else if nn = 0x29 then .ldFont x
  else if nn = 0x33 then .bcd x
  else if nn = 0x55 then .storeRegs x
  else if nn = 0x65 then .loadRegs x
  else .nopUnmatched w

/-- The instruction an instruction word selects (R95, R96, R123); a word that fits no pattern is `NOP_UNMATCHED`. -/
def decodeWord (w : Word) : Instr :=
  match fieldInstr w with
  | 0x0#4 => decode0 w
  | 0x1#4 => .jp (fieldNNN w)
  | 0x2#4 => .call (fieldNNN w)
  | 0x3#4 => .seImm (fieldX w) (fieldNN w)
  | 0x4#4 => .sneImm (fieldX w) (fieldNN w)
  | 0x5#4 => decode5 w
  | 0x6#4 => .ldImm (fieldX w) (fieldNN w)
  | 0x7#4 => .addImm (fieldX w) (fieldNN w)
  | 0x8#4 => decode8 w
  | 0x9#4 => decode9 w
  | 0xA#4 => .ldIndex (fieldNNN w)
  | 0xB#4 => .jpV0 (fieldNNN w)
  | 0xC#4 => .rnd (fieldX w) (fieldNN w)
  | 0xD#4 => .drw (fieldX w) (fieldY w) (fieldN w)
  | 0xE#4 => decodeE w
  | _ => decodeF w

/-- The instruction word `{b0, b1}` (R64, R90): the byte at the lower address is the high half. -/
def wordOfBytes (b0 b1 : Byte) : Word := b0 ++ b1

/-- The first instruction of a byte list and the bytes after it (log 24). -/
def decode : List Byte → Except DecodeError (Instr × List Byte)
  | b0 :: b1 :: rest => .ok (decodeWord (wordOfBytes b0 b1), rest)
  | [_] => .error .truncated
  | [] => .error .truncated

/-! ### The encoder -/

/-- Four nibbles, most significant first (the digits of a pattern, R92). -/
def ofNibbles (a b c d : Nibble) : Word := a ++ b ++ c ++ d

/-- A primary nibble, `X` and `NN`. -/
def ofXNN (a x : Nibble) (nn : Byte) : Word := a ++ x ++ nn

/-- A primary nibble and `NNN`. -/
def ofNNN (a : Nibble) (nnn : Addr12) : Word := a ++ nnn

/-- The instruction word of an instruction, row by row of R96. -/
def encodeWord : Instr → Word
  | .cls => 0x00E0
  | .ret => 0x00EE
  | .jp nnn => ofNNN 0x1 nnn
  | .call nnn => ofNNN 0x2 nnn
  | .seImm x nn => ofXNN 0x3 x nn
  | .sneImm x nn => ofXNN 0x4 x nn
  | .seReg x y => ofNibbles 0x5 x y 0x0
  | .ldImm x nn => ofXNN 0x6 x nn
  | .addImm x nn => ofXNN 0x7 x nn
  | .ldReg x y => ofNibbles 0x8 x y 0x0
  | .or x y => ofNibbles 0x8 x y 0x1
  | .and x y => ofNibbles 0x8 x y 0x2
  | .xor x y => ofNibbles 0x8 x y 0x3
  | .addReg x y => ofNibbles 0x8 x y 0x4
  | .sub x y => ofNibbles 0x8 x y 0x5
  | .shr x y => ofNibbles 0x8 x y 0x6
  | .subn x y => ofNibbles 0x8 x y 0x7
  | .shl x y => ofNibbles 0x8 x y 0xE
  | .sneReg x y => ofNibbles 0x9 x y 0x0
  | .ldIndex nnn => ofNNN 0xA nnn
  | .jpV0 nnn => ofNNN 0xB nnn
  | .rnd x nn => ofXNN 0xC x nn
  | .drw x y n => ofNibbles 0xD x y n
  | .skp x => ofXNN 0xE x 0x9E
  | .sknp x => ofXNN 0xE x 0xA1
  | .ldVxDt x => ofXNN 0xF x 0x07
  | .ldVxKey x => ofXNN 0xF x 0x0A
  | .ldDtVx x => ofXNN 0xF x 0x15
  | .ldStVx x => ofXNN 0xF x 0x18
  | .addIndex x => ofXNN 0xF x 0x1E
  | .ldFont x => ofXNN 0xF x 0x29
  | .bcd x => ofXNN 0xF x 0x33
  | .storeRegs x => ofXNN 0xF x 0x55
  | .loadRegs x => ofXNN 0xF x 0x65
  | .nopUnmatched w => w

/-- The two bytes of an instruction word as they lie in memory, high half first (R64). -/
def bytesOfWord (w : Word) : List Byte := [w.extractLsb' 8 8, w.extractLsb' 0 8]

/-- The bytes of an instruction. -/
def encode (i : Instr) : List Byte := bytesOfWord (encodeWord i)

/-! ### The opcode map as a table -/

/-- One row of the opcode map of R96: its identifier and its `match` and `mask`. -/
structure OpcodeRow where
  /-- The identifier of R96. -/
  id : String
  /-- The fixed bits' values. -/
  matchBits : Word
  /-- The fixed bits' places. -/
  maskBits : Word
  deriving DecidableEq, Repr

/-- `W & mask = match` (R96). -/
def OpcodeRow.fits (r : OpcodeRow) (w : Word) : Bool := (w &&& r.maskBits) == r.matchBits

/-- The 34 patterns of R96, in the table's order, with its `match` and `mask`; the decoder above does not use it. -/
def opcodeMap : List OpcodeRow :=
  [⟨"CLS", 0x00E0, 0xFFFF⟩, ⟨"RET", 0x00EE, 0xFFFF⟩, ⟨"JP", 0x1000, 0xF000⟩, ⟨"CALL", 0x2000, 0xF000⟩,
   ⟨"SE_IMM", 0x3000, 0xF000⟩, ⟨"SNE_IMM", 0x4000, 0xF000⟩, ⟨"SE_REG", 0x5000, 0xF00F⟩] ++
  [⟨"LD_IMM", 0x6000, 0xF000⟩, ⟨"ADD_IMM", 0x7000, 0xF000⟩, ⟨"LD_REG", 0x8000, 0xF00F⟩, ⟨"OR", 0x8001, 0xF00F⟩,
   ⟨"AND", 0x8002, 0xF00F⟩, ⟨"XOR", 0x8003, 0xF00F⟩, ⟨"ADD_REG", 0x8004, 0xF00F⟩, ⟨"SUB", 0x8005, 0xF00F⟩] ++
  [⟨"SHR", 0x8006, 0xF00F⟩, ⟨"SUBN", 0x8007, 0xF00F⟩, ⟨"SHL", 0x800E, 0xF00F⟩, ⟨"SNE_REG", 0x9000, 0xF00F⟩,
   ⟨"LD_INDEX", 0xA000, 0xF000⟩, ⟨"JP_V0", 0xB000, 0xF000⟩, ⟨"RND", 0xC000, 0xF000⟩, ⟨"DRW", 0xD000, 0xF000⟩] ++
  [⟨"SKP", 0xE09E, 0xF0FF⟩, ⟨"SKNP", 0xE0A1, 0xF0FF⟩, ⟨"LD_VX_DT", 0xF007, 0xF0FF⟩, ⟨"LD_VX_KEY", 0xF00A, 0xF0FF⟩,
   ⟨"LD_DT_VX", 0xF015, 0xF0FF⟩, ⟨"LD_ST_VX", 0xF018, 0xF0FF⟩, ⟨"ADD_INDEX", 0xF01E, 0xF0FF⟩] ++
  [⟨"LD_FONT", 0xF029, 0xF0FF⟩, ⟨"BCD", 0xF033, 0xF0FF⟩, ⟨"STORE_REGS", 0xF055, 0xF0FF⟩,
   ⟨"LOAD_REGS", 0xF065, 0xF0FF⟩]

/-- The identifier of R96 of each instruction. -/
def idOf : Instr → String
  | .cls => "CLS" | .ret => "RET" | .jp _ => "JP" | .call _ => "CALL"
  | .seImm _ _ => "SE_IMM" | .sneImm _ _ => "SNE_IMM" | .seReg _ _ => "SE_REG"
  | .ldImm _ _ => "LD_IMM" | .addImm _ _ => "ADD_IMM" | .ldReg _ _ => "LD_REG"
  | .or _ _ => "OR" | .and _ _ => "AND" | .xor _ _ => "XOR"
  | .addReg _ _ => "ADD_REG" | .sub _ _ => "SUB" | .shr _ _ => "SHR"
  | .subn _ _ => "SUBN" | .shl _ _ => "SHL" | .sneReg _ _ => "SNE_REG"
  | .ldIndex _ => "LD_INDEX" | .jpV0 _ => "JP_V0" | .rnd _ _ => "RND" | .drw _ _ _ => "DRW"
  | .skp _ => "SKP" | .sknp _ => "SKNP"
  | .ldVxDt _ => "LD_VX_DT" | .ldVxKey _ => "LD_VX_KEY"
  | .ldDtVx _ => "LD_DT_VX" | .ldStVx _ => "LD_ST_VX"
  | .addIndex _ => "ADD_INDEX" | .ldFont _ => "LD_FONT" | .bcd _ => "BCD"
  | .storeRegs _ => "STORE_REGS" | .loadRegs _ => "LOAD_REGS"
  | .nopUnmatched _ => "NOP_UNMATCHED"

/-! ### The opcode table's numbering -/

/-- The instruction the decoder reads from an instruction whose bits are `w`, numbered as `spec/opcode_table.json`
numbers them: the one 16-bit word has bit 0 as its least significant bit, and bits from `nbits` up are 0. The word
is laid out as memory holds it (high half first, R64) and given to `decode`. -/
def decodeTableWord (nbits w : Nat) : Option Instr :=
  match decode (bytesOfWord (BitVec.ofNat 16 (w % 2 ^ nbits))) with
  | .ok (i, _) => some i
  | .error _ => none

end Sys2Proof
end

