-- ==== Sys2Proof/Config.lean ====
section
/-!
DEFINITION. What is fixed for this machine and never changed by a step (rules R7, R38), and the two values the
spec leaves free (R43, R45).
-/

namespace Sys2Proof

/-- The rows of rule R7 marked *parameter*. The fixed sizes (4096 bytes, 16 registers, 32 slots, 64×32 pixels)
are in the types of `State`. -/
structure Config where
  /-- `FONT_BASE`: address of the first font byte (R61). -/
  fontBase : Word
  /-- `PROG_BASE`: address of the first program byte and reset value of `PC` (R49, R61). -/
  progBase : Word
  /-- `ROM_MAX`: the largest ROM the loader accepts, in bytes (R296). -/
  romMax : Nat
  /-- `FONT`: the 80 glyph bytes (R298). -/
  font : List Byte
  /-- `MEM_FILL`: every memory byte the loader does not write (R299). -/
  memFill : Byte
  /-- `DISPLAY_INIT`: the display plane at launch (R42). -/
  displayInit : Plane
  deriving DecidableEq, Repr

/-- The default `FONT` of R298, one digit a line. PRESUMED, unsafe (log 10): the spec itself takes it from general
knowledge of CHIP-8. -/
def Config.defaultFont : List Byte :=
  [0xF0, 0x90, 0x90, 0x90, 0xF0] ++ [0x20, 0x60, 0x20, 0x20, 0x70] ++
  [0xF0, 0x10, 0xF0, 0x80, 0xF0] ++ [0xF0, 0x10, 0xF0, 0x10, 0xF0] ++
  [0x90, 0x90, 0xF0, 0x10, 0x10] ++ [0xF0, 0x80, 0xF0, 0x10, 0xF0] ++
  [0xF0, 0x80, 0xF0, 0x90, 0xF0] ++ [0xF0, 0x10, 0x20, 0x40, 0x40] ++
  [0xF0, 0x90, 0xF0, 0x90, 0xF0] ++ [0xF0, 0x90, 0xF0, 0x10, 0xF0] ++
  [0xF0, 0x90, 0xF0, 0x90, 0x90] ++ [0xE0, 0x90, 0xE0, 0x90, 0xE0] ++
  [0xF0, 0x80, 0x80, 0x80, 0xF0] ++ [0xE0, 0x90, 0x90, 0x90, 0xE0] ++
  [0xF0, 0x80, 0xF0, 0x80, 0xF0] ++ [0xF0, 0x80, 0xF0, 0x80, 0x80]

/-- This hardware's values of the parameters (R7). `MEM_FILL` and `DISPLAY_INIT` are the spec's decisions D11 and
D12 (log 9, log 11). -/
def config : Config where
  fontBase := 0x050
  progBase := 0x200
  romMax := 3584
  font := Config.defaultFont
  memFill := 0x00
  displayInit := Vector.replicate 32 0

/-- FREE VALUE (log 3), safe: the `n`-th byte of the random source, `Rand8()` of R45. It has no body, so a theorem
about it holds for every draw. -/
opaque Config.randByte : Nat → Byte

/-- FREE VALUE (log 4), safe: the Keypad port's answer `KeyPressed(k)` (R43) at the `n`-th free value taken; two
polls of one key may differ. It has no body. -/
opaque Config.keyDown : Nat → Nibble → Bool

end Sys2Proof
end

