-- ==== Sys2Proof/Machine/State.lean ====
section
/-!
DEFINITION. The machine's state as plain data (rules R20 to R38, R42, R60), its outcomes, and the state after reset
(R49).
-/

namespace Sys2Proof.Machine

/-- `RUN`, the run state of the Executor (R33). -/
inductive RunState where
  /-- The Executor's next step is a fetch. -/
  | running
  /-- An FX0A has executed and no key has arrived. -/
  | waitKey
  /-- A fault was raised; the Executor takes no step until reset. -/
  | halted
  deriving DecidableEq, Repr

/-- What comes next: one of the four kinds of step of R120, or the reset input (R292). -/
inductive Turn where
  /-- The Executor. -/
  | executor
  /-- The delay-timer tick source (R263). -/
  | delayTick
  /-- The sound-timer tick source (R264). -/
  | soundTick
  /-- The Keypad port raises `KeyEvent(k)` (R44, R234). -/
  | keyEvent (k : Nibble)
  /-- The reset input is asserted: a launch with the ROM the loader is given (R290, R292, R293; log 20). -/
  | reset (rom : List Byte)
  deriving DecidableEq, Repr

/-- What the machine puts on its output ports. -/
inductive Output where
  /-- `Warn(W)`: an unmatched word was executed (R46). -/
  | warn (w : Word)
  /-- The Audio port's `play()` (R47, R267). -/
  | audioPlay
  /-- The Audio port's `stop()` (R47, R267). -/
  | audioStop
  deriving DecidableEq, Repr

/-- The five faults of R250. Raising one is a NEXT state with `RUN = HALTED` (R252). -/
inductive FaultKind where
  /-- Code 1 (R253): the fetch of an instruction step. -/
  | fetchOutOfRange
  /-- Code 2 (R254): FX33, FX55, FX65, DXYN. -/
  | memOutOfRange
  /-- Code 3 (R255): 2NNN. -/
  | stackOverflow
  /-- Code 4 (R256): 00EE. -/
  | stackUnderflow
  /-- Code 5 (R257): EX9E, EXA1. -/
  | keyIndexOutOfRange
  deriving DecidableEq, Repr

/-- Memory: the bytes that differ from what an unlisted address reads as (`Memory.unlisted`), addresses strictly
rising (`Memory.wf`). -/
abbrev Memory := List Host.Cell

/-- The whole machine. The first fourteen fields are the spec's; the last three are the model's own: the coming
turns of the agents, the number of free values taken, and what has been put on the output ports. -/
structure State where
  /-- `V[0]` to `V[15]` (R20); VF is `V[15]` (R21). -/
  v : Vector Byte 16
  /-- `I` (R23). -/
  i : Word
  /-- `PC` (R24). -/
  pc : Word
  /-- `SP + 1`, the number of frames in use (R30; log 13). -/
  depth : Fin 33
  /-- `STK[0]` to `STK[31]` (R29). -/
  stk : Vector Word 32
  /-- `DT` (R27). -/
  dt : Byte
  /-- `ST` (R28). -/
  st : Byte
  /-- `RUN` (R33). -/
  run : RunState
  /-- `WAIT_REG` (R34). -/
  waitReg : Nibble
  /-- `FAULT_CAUSE` (R35, codes of R251). -/
  faultCause : BitVec 3
  /-- `FAULT_PC` (R35). -/
  faultPc : Word
  /-- `FAULT_INFO` (R35). -/
  faultInfo : Word
  /-- `MEM` (R60). -/
  mem : Memory
  /-- The display plane (R42). -/
  plane : Plane
  /-- Model's own: the coming turns, next first; an empty list gives the Executor every turn (log 1). -/
  schedule : List Turn
  /-- Model's own: how many free values have been taken (log 3, log 4). -/
  draws : Nat
  /-- Model's own: the outputs so far, newest first (log 5). -/
  outputs : List Output
  deriving DecidableEq, Repr

/-- Why a step can stop the model. -/
inductive Fault where
  /-- Raised by `executorTurn` alone, when the Executor is given a turn in `RUN = HALTED`: it has no step, ever (R120,
  R252), and the run has failed (R307). It carries `FAULT_CAUSE`. SAFE: the model stops where the hardware's
  Executor stops; the ticks that go on (R266) have turns of their own, which do not raise it (log 2). -/
  | halted (cause : BitVec 3)
  /-- Raised by `resetTurn` alone, when the ROM of a launch has more than 3584 bytes: the loader rejects it and no core
  is launched (R274, R296; log 20). SAFE: nothing is claimed of a core that does not run. -/
  | romTooLarge
  deriving DecidableEq, Repr

/-- Why an instruction has no meaning in the model. -/
inductive Refusal where
  /-- Raised by no arm of `exec`: every instruction has its meaning. It would stand in the arm of an instruction not
  modelled yet. SAFE: nothing is claimed of a refused step. -/
  | notModelled (mnemonic : String)
  deriving DecidableEq, Repr

/-- What a step or an instruction answers. -/
abbrev Result := Host.Outcome State Fault Refusal

/-- The state right after reset (R49). `PC` and `SP` are the source's values; the other registers are the spec's
decision D9 (log 7); the stack slots and `WAIT_REG`, which R49 leaves unspecified, are 0 by DESIGN CHOICE (log 8), and
so are the model's own fields (log 1, log 3, log 5). Memory lists nothing: no ROM is placed (log 20). -/
def State.reset : State where
  v := Vector.replicate 16 0
  i := 0
  pc := config.progBase
  depth := 0
  stk := Vector.replicate 32 0
  dt := 0
  st := 0
  run := .running
  waitReg := 0
  faultCause := 0
  faultPc := 0
  faultInfo := 0
  mem := []
  plane := config.displayInit
  schedule := []
  draws := 0
  outputs := []

end Sys2Proof.Machine
end

