-- ==== Sys2Proof/Machine/Ops.lean ====
section
/-!
DEFINITION. The named operations over memory, the call stack, the program counter, the ports and the faults, each
written once from its rule. Instruction meanings are built from these.
-/

namespace Sys2Proof.Machine

/-! ### Memory (R60, R66 to R68) -/

/-- The number of bytes of memory: addresses 0x000 to 0xFFF (R60). -/
def memSize : Nat := 4096

/-- What an address that memory does not list reads as: the launch image without the ROM (R299), the font at
`FONT_BASE` and `MEM_FILL` elsewhere (log 9, log 10). -/
def Memory.unlisted (a : Nat) : Byte :=
  if config.fontBase.toNat ≤ a then config.font.getD (a - config.fontBase.toNat) config.memFill else config.memFill

/-- `MEM[a]`. -/
def Memory.readByte : Memory → Nat → Byte
  | [], a => Memory.unlisted a
  | (k, b) :: rest, a => if k = a then b else Memory.readByte rest a

/-- Put `b` at `a` in front of cells that all lie above `a`, unless `a` reads as `b` unlisted. -/
def Memory.consByte (a : Nat) (b : Byte) (rest : Memory) : Memory :=
  if b = Memory.unlisted a then rest else (a, b) :: rest

/-- `MEM[a] <- b`, in canonical form. -/
def Memory.writeByte : Memory → Nat → Byte → Memory
  | [], a, b => Memory.consByte a b []
  | (k, c) :: rest, a, b =>
    if a < k then Memory.consByte a b ((k, c) :: rest)
    else if a = k then Memory.consByte a b rest
    else (k, c) :: Memory.writeByte rest a b

/-- The bytes written at `a`, `a + 1`, … in rising order. -/
def Memory.writeBytes (m : Memory) (a : Nat) : List Byte → Memory
  | [] => m
  | b :: bs => Memory.writeBytes (m.writeByte a b) (a + 1) bs

/-- The `n` bytes at `a`, `a + 1`, … in rising order. -/
def Memory.readBytes (m : Memory) (a n : Nat) : List Byte :=
  (List.range n).map fun k => m.readByte (a + k)

/-- The canonical form: addresses strictly rising and inside memory, no cell equal to what its address reads as when
unlisted. -/
abbrev Memory.wf (m : Memory) : Prop :=
  m.Pairwise (fun p q => p.1 < q.1) ∧ ∀ c ∈ m, c.1 < memSize ∧ c.2 ≠ Memory.unlisted c.1

/-- `CheckRange(addr, n)` (R68): the lowest offending address of `addr` to `addr + n - 1`, if there is one. The sum is
not wrapped. -/
def checkRange (addr : Word) (n : Nat) : Option Word :=
  if n = 0 then none
  else if addr.toNat + n ≤ memSize then none
  else if memSize ≤ addr.toNat then some addr
  else some (BitVec.ofNat 16 memSize)

/-- `MemRead` of `n` consecutive bytes from `addr` after `CheckRange` of them all (R66, R68); an error is the address
to report. -/
def State.memRead (s : State) (addr : Word) (n : Nat) : Except Word (List Byte) :=
  match checkRange addr n with
  | some bad => .error bad
  | none => .ok (s.mem.readBytes addr.toNat n)

/-- `MemWrite` of consecutive bytes from `addr` after `CheckRange` of them all (R67, R68). -/
def State.memWrite (s : State) (addr : Word) (bytes : List Byte) : Except Word State :=
  match checkRange addr bytes.length with
  | some bad => .error bad
  | none => .ok { s with mem := s.mem.writeBytes addr.toNat bytes }

/-! ### General registers, `I` and `PC` -/

/-- `V[x]` (R9, R20). -/
def State.getV (s : State) (x : Nibble) : Byte := s.v[x.toNat]'x.isLt

/-- `V[x] <- b` (R9, R20). -/
def State.setV (s : State) (x : Nibble) (b : Byte) : State := { s with v := s.v.set x.toNat b x.isLt }

/-- `I <- w` (R23). -/
def State.setI (s : State) (w : Word) : State := { s with i := w }

/-- `PC <- w` (R24). -/
def State.setPc (s : State) (w : Word) : State := { s with pc := w }

/-- The advance: `PC <- (PC + 2) mod 65536` (R122). -/
def State.advance (s : State) : State := s.setPc (s.pc + 2)

/-- A skip: a further `PC <- (PC + 2) mod 65536` when the condition holds (R25, R144). -/
def State.skipIf (s : State) (c : Bool) : State := if c then s.setPc (s.pc + 2) else s

/-! ### Timers -/

/-- `DT <- b` (R27). -/
def State.setDt (s : State) (b : Byte) : State := { s with dt := b }

/-- `ST <- b` (R28). -/
def State.setSt (s : State) (b : Byte) : State := { s with st := b }

/-! ### The call stack (R29 to R32) -/

/-- `SP`, -1 when the stack is empty (R30). -/
def State.sp (s : State) : Int := (s.depth.val : Int) - 1

/-- `SP` as the 6-bit two's-complement field R30 fixes for an implementation that needs one. -/
def State.spBits (s : State) : BitVec 6 := BitVec.ofInt 6 s.sp

/-- `Push(w)` (R31): nothing when `SP = 31`; else `SP` rises and `STK[SP]` is written. -/
def State.push (s : State) (w : Word) : Option State :=
  if h : s.depth.val < 32 then
    some { s with depth := ⟨s.depth.val + 1, by omega⟩, stk := s.stk.set s.depth.val w h }
  else none

/-- `Pop()` (R32): nothing when `SP = -1`; else `STK[SP]`, and `SP` falls. The slot keeps its contents. -/
def State.pop (s : State) : Option (Word × State) :=
  if h : 0 < s.depth.val then
    some (s.stk[s.depth.val - 1]'(by omega), { s with depth := ⟨s.depth.val - 1, by omega⟩ })
  else none

/-! ### Faults (R251, R252): taking one is one shared operation; there is no return from one (R261) -/

/-- The cause code of R251. -/
def FaultKind.code : FaultKind → BitVec 3
  | .fetchOutOfRange => 1
  | .memOutOfRange => 2
  | .stackOverflow => 3
  | .stackUnderflow => 4
  | .keyIndexOutOfRange => 5

/-- `raise` (R252): record the cause, the address of the faulting instruction and the information, halt, and change
nothing else (log 21). -/
def State.raise (s : State) (k : FaultKind) (at_ info : Word) : State :=
  { s with run := .halted, faultCause := k.code, faultPc := at_, faultInfo := info }

/-- `A`, the address the executing instruction was fetched from: inside a handler `PC = A + 2` (R122, R140). -/
def State.fetchedFrom (s : State) : Word := s.pc - 2

/-- A fault inside a handler (R126): the state after the advance with the fault recorded at `A`. -/
def handlerFault (s : State) (k : FaultKind) (info : Word) : Result := .next (s.raise k s.fetchedFrom info)

/-! ### Ports and free values -/

/-- Put an event on an output port (R46, R47). -/
def State.emit (s : State) (o : Output) : State := { s with outputs := o :: s.outputs }

/-- The next free value is taken. -/
def State.draw (s : State) : State := { s with draws := s.draws + 1 }

/-- `Rand8()` (R45): any byte, a fresh one at each call. -/
def State.rand8 (s : State) : Byte × State := (Config.randByte s.draws, s.draw)

/-- `KeyPressed(k)` (R43): the port's answer at this call. -/
def State.keyPressed (s : State) (k : Nibble) : Bool × State := (Config.keyDown s.draws k, s.draw)

/-- `DispIsSet(col, row)` (R41, R42; log 6). -/
def dispIsSet (p : Plane) (col : Fin 64) (row : Fin 32) : Bool := p[row].getLsbD col.val

/-- `DispSet(col, row, on)` (R41, R42): that pixel becomes `on`, no other changes. -/
def dispSet (p : Plane) (col : Fin 64) (row : Fin 32) (on : Bool) : Plane :=
  let pixel := 1#64 <<< col.val
  p.set row (if on then p[row] ||| pixel else p[row] &&& ~~~pixel)

/-- `DispClear()` (R41, R42): every pixel off. -/
def dispClear : Plane := Vector.replicate 32 0

/-- The display plane is replaced. -/
def State.setPlane (s : State) (p : Plane) : State := { s with plane := p }

/-- The Executor is parked to wait for a key for `V[x]` (R233; log 22). -/
def State.park (s : State) (x : Nibble) : State := { s with waitReg := x, run := .waitKey }

/-- Whether a tone sounds: the newest Audio command was `play` (R47; both commands are idempotent, R267). -/
def toneOn : List Output → Bool
  | [] => false
  | .audioPlay :: _ => true
  | .audioStop :: _ => false
  | .warn _ :: rest => toneOn rest

end Sys2Proof.Machine
end

