-- ==== Sys2Proof/Machine/Flags.lean ====
section
/-!
DEFINITION. The flag values written into VF (rule R26), each the byte 0 or 1, and the write of VF.
-/

namespace Sys2Proof.Machine

/-- The register VF (R21). -/
abbrev vf : Nibble := 15

/-- A flag as the 8-bit value 0 or 1 (R26). -/
def flagByte (b : Bool) : Byte := if b then 1 else 0

/-- Carry: the 9-bit sum exceeds 255 (R26, R167). -/
def carryFlag (a b : Byte) : Bool := decide (a.toNat + b.toNat > 255)

/-- Borrow-style compare: strictly greater, unsigned (R26, R168, R170). -/
def greaterFlag (a b : Byte) : Bool := decide (a.toNat > b.toNat)

/-- Shifted-out bit of a right shift: bit 0 (R26, R169). -/
def lowBit (a : Byte) : Bool := a.getLsbD 0

/-- Shifted-out bit of a left shift: bit 7 (R26, R171). -/
def highBit (a : Byte) : Bool := a.getLsbD 7

/-- The flag write `V[15] <- 0 or 1` (R21, R26). -/
def State.setFlag (s : State) (b : Bool) : State := s.setV vf (flagByte b)

end Sys2Proof.Machine
end

