-- ==== Sys2Proof/Machine/Alu.lean ====
section
/-!
DEFINITION. Register loads, arithmetic, logic, shifts and random (rules R160 to R174). In the flag writers the
statements run in the order written and each re-reads the registers (R160; log 12).
-/

namespace Sys2Proof.Machine

/-- LD_IMM, 6XNN (R161). -/
def execLdImm (x : Nibble) (nn : Byte) (s : State) : Result := .next (s.setV x nn)

/-- ADD_IMM, 7XNN (R162): the carry is lost. -/
def execAddImm (x : Nibble) (nn : Byte) (s : State) : Result := .next (s.setV x (s.getV x + nn))

/-- LD_REG, 8XY0 (R163). -/
def execLdReg (x y : Nibble) (s : State) : Result := .next (s.setV x (s.getV y))

/-- OR, 8XY1 (R164). -/
def execOr (x y : Nibble) (s : State) : Result := .next (s.setV x (s.getV x ||| s.getV y))

/-- AND, 8XY2 (R165). -/
def execAnd (x y : Nibble) (s : State) : Result := .next (s.setV x (s.getV x &&& s.getV y))

/-- XOR, 8XY3 (R166). -/
def execXor (x y : Nibble) (s : State) : Result := .next (s.setV x (s.getV x ^^^ s.getV y))

/-- ADD_REG, 8XY4 (R167): the sum is taken before the flag is written. -/
def execAddReg (x y : Nibble) (s : State) : Result :=
  let sum := s.getV x + s.getV y
  let s1 := s.setFlag (carryFlag (s.getV x) (s.getV y))
  .next (s1.setV x sum)

/-- SUB, 8XY5 (R168): the subtraction reads both registers after the flag is written. -/
def execSub (x y : Nibble) (s : State) : Result :=
  let s1 := s.setFlag (greaterFlag (s.getV x) (s.getV y))
  .next (s1.setV x (s1.getV x - s1.getV y))

/-- SHR, 8XY6 (R169): `V[X]` is shifted in place; `y` is ignored (R99). -/
def execShr (x _y : Nibble) (s : State) : Result :=
  let s1 := s.setFlag (lowBit (s.getV x))
  .next (s1.setV x (s1.getV x >>> 1))

/-- SUBN, 8XY7 (R170): the difference is `V[X] - V[Y]` here too, with the flag `V[Y] > V[X]` (log 18). -/
def execSubn (x y : Nibble) (s : State) : Result :=
  let s1 := s.setFlag (greaterFlag (s.getV y) (s.getV x))
  .next (s1.setV x (s1.getV x - s1.getV y))

/-- SHL, 8XYE (R171): `V[Y]` is copied into `V[X]` first. -/
def execShl (x y : Nibble) (s : State) : Result :=
  let s1 := s.setV x (s.getV y)
  let s2 := s1.setFlag (highBit (s1.getV x))
  .next (s2.setV x (s2.getV x <<< 1))

/-- RND, CXNN (R172). -/
def execRnd (x : Nibble) (nn : Byte) (s : State) : Result :=
  let (r, s1) := s.rand8
  .next (s1.setV x (r &&& nn))

end Sys2Proof.Machine
end

