-- ==== Sys2Proof/Machine/Operands.lean ====
section
/-!
DEFINITION. How operands are formed (rule R94): zero extension, the implied register V0, the register range
`V[0]..V[X]`, the key number, the font address, the BCD digits and the sprite anchor.
-/

namespace Sys2Proof.Machine

/-- `zext_16(NNN)` (R94). -/
def zextNNN (nnn : Addr12) : Word := nnn.setWidth 16

/-- `zext_16` of a byte (R148, R191, R251). -/
def zextByte (b : Byte) : Word := b.setWidth 16

/-- `zext_8` of a key number (R234). -/
def zextKey (k : Nibble) : Byte := k.setWidth 8

/-- `V[0]`, named by BNNN itself (R94). -/
def State.v0 (s : State) : Byte := s.getV 0

/-- How many registers `V[0]..V[X]` names: `X + 1` (R94). -/
def rangeCount (x : Nibble) : Nat := x.toNat + 1

/-- `V[0]` to `V[X]` in rising order (R194). -/
def State.rangeV (s : State) (x : Nibble) : List Byte :=
  (List.range (rangeCount x)).map fun k => s.getV (BitVec.ofNat 4 k)

/-- `V[k] <- b`, `V[k + 1] <- b'`, … in rising order, the order of FX65's loop (R195). -/
def State.setRangeV (s : State) (k : Nat) : List Byte → State
  | [] => s
  | b :: bs => State.setRangeV (s.setV (BitVec.ofNat 4 k) b) (k + 1) bs

/-- `I` moved past the last byte a block access touched: `I + X + 1` (R194, R195). -/
def State.pastRange (s : State) (x : Nibble) : Word := s.i + BitVec.ofNat 16 (rangeCount x)

/-- The key number in a register, where it is in the port's domain 0 to 15 (R43, R230). -/
def keyOf (b : Byte) : Option Nibble := if b.toNat > 0xF then none else some (b.setWidth 4)

/-- The glyph address of the digit in a register's low nibble (R192). -/
def fontAddress (b : Byte) : Word := config.fontBase + 5 * (b &&& 0xF).setWidth 16

/-- The hundreds, tens and ones digits of a byte, each in a byte of its own (R193). -/
def bcdDigits (b : Byte) : List Byte := [b / 100, (b / 10) % 10, b % 10]

/-- The column of a sprite's anchor: `V[X] mod 64` (R211). -/
def anchorCol (b : Byte) : Nat := b.toNat % 64

/-- The row of a sprite's anchor: `V[Y] mod 32` (R211). -/
def anchorRow (b : Byte) : Nat := b.toNat % 32

/-- How many rows of a sprite of `n` rows are read and drawn: those not past row 31 (R212). -/
def spriteRows (n : Nibble) (yc : Nat) : Nat := min n.toNat (32 - yc)

end Sys2Proof.Machine
end

