-- ==== Sys2Proof/Machine/ControlFlow.lean ====
section
/-!
DEFINITION. Control transfer (rules R140 to R149). Inside a handler `PC` is the advanced value `A + 2`.
-/

namespace Sys2Proof.Machine

/-- RET, 00EE (R141). -/
def execRet (s : State) : Result :=
  match s.pop with
  | none => handlerFault s .stackUnderflow 0
  | some (w, s') => .next (s'.setPc w)

/-- JP, 1NNN (R142). -/
def execJp (nnn : Addr12) (s : State) : Result := .next (s.setPc (zextNNN nnn))

/-- CALL, 2NNN (R143). -/
def execCall (nnn : Addr12) (s : State) : Result :=
  match s.push s.pc with
  | none => handlerFault s .stackOverflow 0
  | some s' => .next (s'.setPc (zextNNN nnn))

/-- SE_IMM, 3XNN (R144). -/
def execSeImm (x : Nibble) (nn : Byte) (s : State) : Result := .next (s.skipIf (s.getV x == nn))

/-- SNE_IMM, 4XNN (R145). -/
def execSneImm (x : Nibble) (nn : Byte) (s : State) : Result := .next (s.skipIf (s.getV x != nn))

/-- SE_REG, 5XY0 (R146). -/
def execSeReg (x y : Nibble) (s : State) : Result := .next (s.skipIf (s.getV x == s.getV y))

/-- SNE_REG, 9XY0 (R147). -/
def execSneReg (x y : Nibble) (s : State) : Result := .next (s.skipIf (s.getV x != s.getV y))

/-- JP_V0, BNNN (R148): a 16-bit sum, not masked to 12 bits. -/
def execJpV0 (nnn : Addr12) (s : State) : Result := .next (s.setPc (zextNNN nnn + zextByte s.v0))

end Sys2Proof.Machine
end

