-- ==== Sys2Proof/Machine/Display.lean ====
section
/-!
DEFINITION. The display instructions (rules R210 to R213). The Display port is called with coordinates inside the
plane only (R41): the clipping tests give the port's argument types.
-/

namespace Sys2Proof.Machine

/-- One pixel of a sprite row: bit `7 - k` of `b` onto column `xc + k` of `row`, clipped at the right edge (R212). The
pair is the plane and whether a lit pixel has been turned off so far. -/
def drawPixel (xc : Nat) (row : Fin 32) (b : Byte) (acc : Plane × Bool) (k : Nat) : Plane × Bool :=
  if h : xc + k < 64 then
    let col : Fin 64 := ⟨xc + k, h⟩
    if b.getLsbD (7 - k) then
      if dispIsSet acc.1 col row then (dispSet acc.1 col row false, true)
      else (dispSet acc.1 col row true, acc.2)
    else acc
  else acc

/-- One sprite row, most significant bit first (R212). -/
def drawRow (xc : Nat) (row : Fin 32) (b : Byte) (acc : Plane × Bool) : Plane × Bool :=
  (List.range 8).foldl (drawPixel xc row b) acc

/-- The sprite's bytes from row `row` down; a row past 31 is clipped (R212). -/
def drawRows (xc : Nat) (row : Nat) : List Byte → Plane × Bool → Plane × Bool
  | [], acc => acc
  | b :: bs, acc => drawRows xc (row + 1) bs (if h : row < 32 then drawRow xc ⟨row, h⟩ b acc else acc)

/-- CLS, 00E0 (R210). -/
def execCls (s : State) : Result := .next (s.setPlane dispClear)

/-- DRW, DXYN (R211 to R213): the anchor is read before VF is reset; only the rows that will be drawn are checked
and read (log 17); `I` is not changed. -/
def execDrw (x y n : Nibble) (s : State) : Result :=
  let xc := anchorCol (s.getV x)
  let yc := anchorRow (s.getV y)
  match s.memRead s.i (spriteRows n yc) with
  | .error bad => handlerFault s .memOutOfRange bad
  | .ok bytes =>
    let drawn := drawRows xc yc bytes (s.plane, false)
    .next ((s.setPlane drawn.1).setFlag drawn.2)

end Sys2Proof.Machine
end

