-- ==== Sys2Proof/Machine/IndexMemory.lean ====
section
/-!
DEFINITION. The index register and the memory instructions (rules R190 to R196). The whole range is checked before
the first access, so a fault leaves everything as it was (R68).
-/

namespace Sys2Proof.Machine

/-- LD_INDEX, ANNN (R190). -/
def execLdIndex (nnn : Addr12) (s : State) : Result := .next (s.setI (zextNNN nnn))

/-- ADD_INDEX, FX1E (R191): a 16-bit sum; VF is not written. -/
def execAddIndex (x : Nibble) (s : State) : Result := .next (s.setI (s.i + zextByte (s.getV x)))

/-- LD_FONT, FX29 (R192). -/
def execLdFont (x : Nibble) (s : State) : Result := .next (s.setI (fontAddress (s.getV x)))

/-- BCD, FX33 (R193): `I` is not changed. -/
def execBcd (x : Nibble) (s : State) : Result :=
  match s.memWrite s.i (bcdDigits (s.getV x)) with
  | .error bad => handlerFault s .memOutOfRange bad
  | .ok s' => .next s'

/-- STORE_REGS, FX55 (R194). -/
def execStoreRegs (x : Nibble) (s : State) : Result :=
  match s.memWrite s.i (s.rangeV x) with
  | .error bad => handlerFault s .memOutOfRange bad
  | .ok s' => .next (s'.setI (s.pastRange x))

/-- LOAD_REGS, FX65 (R195). -/
def execLoadRegs (x : Nibble) (s : State) : Result :=
  match s.memRead s.i (rangeCount x) with
  | .error bad => handlerFault s .memOutOfRange bad
  | .ok bytes => .next ((s.setRangeV 0 bytes).setI (s.pastRange x))

end Sys2Proof.Machine
end

