-- ==== Sys2Proof/Machine/KeypadTimers.lean ====
section
/-!
DEFINITION. The keypad and timer instructions (rules R230 to R237) and the key delivery step that completes FX0A
(R234).
-/

namespace Sys2Proof.Machine

/-- SKP, EX9E (R230). -/
def execSkp (x : Nibble) (s : State) : Result :=
  match keyOf (s.getV x) with
  | none => handlerFault s .keyIndexOutOfRange (zextByte (s.getV x))
  | some k =>
    let (down, s1) := s.keyPressed k
    .next (s1.skipIf down)

/-- SKNP, EXA1 (R231). -/
def execSknp (x : Nibble) (s : State) : Result :=
  match keyOf (s.getV x) with
  | none => handlerFault s .keyIndexOutOfRange (zextByte (s.getV x))
  | some k =>
    let (down, s1) := s.keyPressed k
    .next (s1.skipIf (!down))

/-- LD_VX_DT, FX07 (R232). -/
def execLdVxDt (x : Nibble) (s : State) : Result := .next (s.setV x s.dt)

/-- LD_VX_KEY, FX0A, the instruction step (R233): the Executor is parked; no general register is written. -/
def execLdVxKey (x : Nibble) (s : State) : Result := .next (s.park x)

/-- LD_DT_VX, FX15 (R235). -/
def execLdDtVx (x : Nibble) (s : State) : Result := .next (s.setDt (s.getV x))

/-- LD_ST_VX, FX18 (R236): no Audio call. -/
def execLdStVx (x : Nibble) (s : State) : Result := .next (s.setSt (s.getV x))

/-- `KeyEvent(k)` (R44, R234): the key delivery step while waiting; otherwise dropped without trace (log 22). -/
def deliverKey (k : Nibble) (s : State) : State :=
  match s.run with
  | .waitKey => { s.setV s.waitReg (zextKey k) with run := .running }
  | .running => s
  | .halted => s

end Sys2Proof.Machine
end

