-- ==== Sys2Proof/Machine/Unmatched.lean ====
section
/-!
DEFINITION. The handler of every unmatched word (rules R98, R124).
-/

namespace Sys2Proof.Machine

/-- NOP_UNMATCHED (R124): `Warn(W)` and nothing else. -/
def execNopUnmatched (w : Word) (s : State) : Result := .next (s.emit (.warn w))

end Sys2Proof.Machine
end

