-- ==== Sys2Proof/Machine/Loader.lean ====
section
/-!
DEFINITION. The Program Loader and the launch (rules R293, R296 to R299): what stands in memory before the first
fetch, and the load-time error R274.
-/

namespace Sys2Proof.Machine

/-- Why a launch is rejected. -/
inductive LoadError where
  /-- The ROM has more than 3584 bytes; the core is never launched (R274, R296). -/
  | romTooLarge
  deriving DecidableEq, Repr

/-- The memory image (R299): the font and the fill are what memory reads as unlisted, the ROM lies at `PROG_BASE`. -/
def loadImage (rom : List Byte) : Memory := Memory.writeBytes [] config.progBase.toNat rom

/-- `interpret(program_bytes)` (R48, R293): the size check, the image, and the reset state (R49). Reset is this event
(R290; log 20). -/
def launch (rom : List Byte) : Except LoadError State :=
  if rom.length > config.romMax then .error .romTooLarge
  else .ok { State.reset with mem := loadImage rom }

end Sys2Proof.Machine
end

