-- ==== Sys2Proof/Machine/Ticks.lean ====
section
/-!
DEFINITION. The two tick steps (rules R262 to R267), always enabled whatever `RUN` is (R266).
-/

namespace Sys2Proof.Machine

/-- The delay tick (R263): down by one, clamped at 0. -/
def delayTick (s : State) : State := if s.dt = 0 then s else s.setDt (s.dt - 1)

/-- The sound tick (R264): down by one with `play` when nonzero; then `stop` when zero (so 1 gives both; log 23). -/
def soundTick (s : State) : State :=
  let s1 := if s.st = 0 then s else (s.setSt (s.st - 1)).emit .audioPlay
  if s1.st = 0 then s1.emit .audioStop else s1

end Sys2Proof.Machine
end

