-- ==== Sys2Proof/Machine/Executor.lean ====
section
/-!
DEFINITION. The Executor's instruction step (rules R121 to R128), the turns of the four agents (R120) and the reset
input (R292).
-/

namespace Sys2Proof.Machine

/-- Fetch (R121): the word `{MEM[PC], MEM[PC + 1]}`, or the offending address, which is `PC`, or `PC + 1` when
`PC = 0xFFF`. -/
def fetch (s : State) : Except Word Word :=
  match checkRange s.pc 2 with
  | some bad => .error bad
  | none => .ok (wordOfBytes (s.mem.readByte s.pc.toNat) (s.mem.readByte (s.pc.toNat + 1)))

/-- The instruction step (R128): fetch, advance, decode and dispatch. A fetch fault comes before the advance and
records the address of the failed fetch (R253). -/
def instructionStep (s : State) : Result :=
  match fetch s with
  | .error bad => .next (s.raise .fetchOutOfRange s.pc bad)
  | .ok w => exec (decodeWord w) s.advance

/-- The Executor's turn (R120): an instruction step while `RUNNING`; while `WAIT_KEY` it has no step and the machine
is as it was (R233, R307); in `HALTED` it has no step ever and the run has failed (R252; log 2). -/
def executorTurn (s : State) : Result :=
  match s.run with
  | .running => instructionStep s
  | .waitKey => .next s
  | .halted => .fault (.halted s.faultCause)

/-- The reset input (R290, R292): a new launch. Nothing of the machine survives; the model's own fields go on, so that
the turns to come, the free values and the record of outputs are those of one history (log 20). -/
def resetTurn (rom : List Byte) (s : State) : Result :=
  match launch rom with
  | .error .romTooLarge => .fault .romTooLarge
  | .ok t => .next { t with schedule := s.schedule, draws := s.draws, outputs := s.outputs }

/-- One turn: a step of an agent (R120), or the reset input. -/
def takeTurn (t : Turn) (s : State) : Result :=
  match t with
  | .executor => executorTurn s
  | .delayTick => .next (delayTick s)
  | .soundTick => .next (soundTick s)
  | .keyEvent k => .next (deliverKey k s)
  | .reset rom => resetTurn rom s

/-- Whose turn it is, and the state with that turn taken off the schedule; an empty schedule gives the Executor the
turn (log 1). -/
def nextTurn (s : State) : Turn × State :=
  match s.schedule with
  | [] => (.executor, s)
  | t :: rest => (t, { s with schedule := rest })

/-- One step of the machine. -/
def machineStep (s : State) : Result := takeTurn (nextTurn s).1 (nextTurn s).2

/-- An instruction word placed where the Executor fetches next (log 20), with the Executor running and given the next
turn. Where `PC` names no two bytes of memory nothing is placed, and the next fetch faults (R121). -/
def placeWord (s : State) (w : Word) : State :=
  { s with
    mem := if s.pc.toNat ≤ 0xFFE then s.mem.writeBytes s.pc.toNat (bytesOfWord w) else s.mem
    run := .running
    schedule := .executor :: s.schedule }

end Sys2Proof.Machine
end

