-- ==== Sys2Proof/Machine/Step.lean ====
section
/-!
DEFINITION. One step of the machine, and an instruction word placed where the next step fetches it.
-/

namespace Sys2Proof.Machine

/-- One step (R120): the turn the schedule names. -/
def step : State → Host.Outcome State Fault Refusal := machineStep

/-- The state with the instruction whose bits are `w`, numbered as `spec/opcode_table.json` numbers them (bits from
`nbits` up are 0), placed where the next step fetches and runs it: the two bytes at `PC`, `RUN = RUNNING` and the
Executor's turn (log 20). -/
def State.withFetchWord (s : State) (nbits w : Nat) : State := placeWord s (BitVec.ofNat 16 (w % 2 ^ nbits))

end Sys2Proof.Machine
end

