-- ==== Sys2Proof/Safety.lean ====
section
/-!
DEFINITION. What claims about runs are stated in: failed runs, the machine's invariants, and the states some run
reaches.
-/

namespace Sys2Proof.Machine

/-- The run has failed: a fault halted the core (R252, R307). -/
def Failed (s : State) : Prop := s.run = .halted

/-- The memory is in its canonical form and lies inside the 4096 bytes. -/
abbrev MemoryCanonical (s : State) : Prop := s.mem.wf

/-- `PC <= 0x10FE`, and every occupied stack slot holds at most 0x1000, which is why (R25). -/
def PcBounded (s : State) : Prop :=
  s.pc.toNat ≤ 0x10FE ∧ ∀ j : Fin 32, j.val < s.depth.val → s.stk[j].toNat ≤ 0x1000

/-- The fault registers say exactly whether the core has halted, with a code of R251's table, and are 0 before
(R35, R251). -/
def FaultRecorded (s : State) : Prop :=
  (s.run = .halted ↔ s.faultCause ≠ 0) ∧ s.faultCause.toNat ≤ 5 ∧
    (s.faultCause = 0 → s.faultPc = 0 ∧ s.faultInfo = 0)

/-- The states some run reaches: a launch of a ROM under any schedule of the agents' turns, and every step after. -/
inductive Reachable : State → Prop where
  /-- The launch state, with any turns to come. -/
  | launched (rom : List Byte) (turns : List Turn) (s : State) (h : launch rom = .ok s) :
      Reachable { s with schedule := turns }
  /-- A step. -/
  | stepped (s t : State) (hs : Reachable s) (h : step s = .next t) : Reachable t

end Sys2Proof.Machine
end

