-- ==== Sys2Proof/Certificates/Slice0/Obligations.lean ====
section
/-!
DEFINITION. The statements for the provers, family by family, and the few predicates they are worded in. A frame is
written `t = { s with f := t.f, … }`: every field but the ones named is as before.
-/

namespace Sys2Proof.Claims

open Sys2Proof.Machine

/-- `V[x]` becomes `b`, every other general register and everything outside the register file is as before. -/
def WritesRegister (s t : State) (x : Nibble) (b : Byte) : Prop :=
  t.getV x = b ∧ (∀ r, r ≠ x → t.getV r = s.getV r) ∧ t = { s with v := t.v }

/-- The state a fault leaves (R252): halted, the cause code, address and information of R251, nothing else changed. -/
def faulted (s : State) (code : BitVec 3) (addr info : Word) : State :=
  { s with run := .halted, faultCause := code, faultPc := addr, faultInfo := info }

/-- The lowest offending address of an access that starts at `a` and does not end inside memory (R254). -/
def offending (a : Word) : Word := if 0xFFF < a.toNat then a else 0x1000

/-- 1 when `c` holds, else 0 (the `[c]` of R174). -/
def bit (c : Prop) [Decidable c] : Byte := if c then 1 else 0

/-- Push a list of words, first one first. -/
def pushAll (s : State) : List Word → Option State
  | [] => some s
  | w :: ws => (s.push w).bind fun t => pushAll t ws

/-- Pop a number of words, the newest first. -/
def popAll (s : State) : Nat → Option (List Word × State)
  | 0 => some ([], s)
  | n + 1 => s.pop.bind fun p => (popAll p.2 n).map fun q => (p.1 :: q.1, q.2)

/-- The sprite that DXYN names in `s` covers pixel `(c, r)` with a set bit (R211, R212). -/
def spriteBit (s : State) (x y n : Nibble) (c : Fin 64) (r : Fin 32) : Bool :=
  let xc := (s.getV x).toNat % 64
  let yc := (s.getV y).toNat % 32
  decide (xc ≤ c.val ∧ c.val < xc + 8) && decide (yc ≤ r.val ∧ r.val < yc + n.toNat) &&
    (s.mem.readByte (s.i.toNat + (r.val - yc))).getLsbD (7 - (c.val - xc))

/-- Every surviving row of the sprite lies in memory (R212, R213). -/
def SpriteInRange (s : State) (y n : Nibble) : Prop :=
  let rows := min n.toNat (32 - (s.getV y).toNat % 32)
  rows = 0 ∨ s.i.toNat + rows ≤ 4096

/-- The general registers an instruction step may write (R22; the key of FX0A is written by the delivery step). -/
def mayWriteV : Instr → Nibble → Prop
  | .ldImm x _, r | .addImm x _, r | .ldReg x _, r | .or x _, r | .and x _, r | .xor x _, r => r = x
  | .addReg x _, r | .sub x _, r | .shr x _, r | .subn x _, r | .shl x _, r => r = x ∨ r = 15
  | .rnd x _, r | .ldVxDt x, r => r = x
  | .loadRegs x, r => r.toNat ≤ x.toNat
  | .drw _ _ _, r => r = 15
  | .cls, _ | .ret, _ | .jp _, _ | .call _, _ | .seImm _ _, _ | .sneImm _ _, _ | .seReg _ _, _ | .sneReg _ _, _ => False
  | .ldIndex _, _ | .jpV0 _, _ | .skp _, _ | .sknp _, _ | .ldVxKey _, _ | .ldDtVx _, _ | .ldStVx _, _ => False
  | .addIndex _, _ | .ldFont _, _ | .bcd _, _ | .storeRegs _, _ | .nopUnmatched _, _ => False

/-- The instructions whose rules move `PC` after the advance, or may (R25). -/
def mayMovePc : Instr → Prop
  | .ret | .jp _ | .call _ | .jpV0 _ => True
  | .seImm _ _ | .sneImm _ _ | .seReg _ _ | .sneReg _ _ | .skp _ | .sknp _ => True
  | .cls | .ldImm _ _ | .addImm _ _ | .ldReg _ _ | .or _ _ | .and _ _ | .xor _ _ => False
  | .addReg _ _ | .sub _ _ | .shr _ _ | .subn _ _ | .shl _ _ | .rnd _ _ | .drw _ _ _ => False
  | .ldVxDt _ | .ldVxKey _ | .ldDtVx _ | .ldStVx _ | .ldIndex _ | .addIndex _ | .ldFont _ => False
  | .bcd _ | .storeRegs _ | .loadRegs _ | .nopUnmatched _ => False

/-- The instructions whose handlers raise a fault of R250 on some states. -/
def mayFault : Instr → Prop
  | .ret | .call _ | .drw _ _ _ | .skp _ | .sknp _ | .bcd _ | .storeRegs _ | .loadRegs _ => True
  | .cls | .jp _ | .jpV0 _ | .seImm _ _ | .sneImm _ _ | .seReg _ _ | .sneReg _ _ => False
  | .ldImm _ _ | .addImm _ _ | .ldReg _ _ | .or _ _ | .and _ _ | .xor _ _ => False
  | .addReg _ _ | .sub _ _ | .shr _ _ | .subn _ _ | .shl _ _ | .rnd _ _ => False
  | .ldVxDt _ | .ldVxKey _ | .ldDtVx _ | .ldStVx _ | .ldIndex _ | .addIndex _ | .ldFont _ => False
  | .nopUnmatched _ => False

end Sys2Proof.Claims

open Sys2Proof Sys2Proof.Machine Sys2Proof.Claims

/-! ### Encoding and decoding -/

/-- Words written out from the encodings of R96, one or more a family, with the instructions they stand for
(95_test_vectors.md 2.1 and the families' worked examples). -/
def Obligations.SampleWordsDecode : Prop :=
  decode [0x00, 0xE0] = .ok (.cls, []) ∧ decode [0x00, 0xEE] = .ok (.ret, []) ∧
  decode [0x20, 0x12] = .ok (.call 0x012, []) ∧ decode [0x8A, 0xBE] = .ok (.shl 0xA 0xB, []) ∧
  decode [0xA2, 0xF0] = .ok (.ldIndex 0x2F0, []) ∧ decode [0xD1, 0x2F] = .ok (.drw 1 2 0xF, []) ∧
  decode [0xE3, 0x9E] = .ok (.skp 3, []) ∧ decode [0xF5, 0x65] = .ok (.loadRegs 5, []) ∧
  decode [0x5A, 0xB1] = .ok (.nopUnmatched 0x5AB1, [])

/-- For every well-formed instruction, with every operand at every value, decoding its bytes gives it back and leaves
the bytes after it (R90 to R96). -/
def Obligations.DecodeOfEncodeIsIdentity : Prop :=
  ∀ (i : Instr) (rest : List Byte), WellFormed i = true → decode (encode i ++ rest) = .ok (i, rest)

/-- Every word decodes to a well-formed instruction (R93) whose encoding is that word: no bit is dropped. -/
def Obligations.EncodeOfDecodeIsIdentity : Prop :=
  ∀ w : Word, WellFormed (decodeWord w) = true ∧ encodeWord (decodeWord w) = w

/-- A word selects an instruction exactly when it fits that row's `match` and `mask`, and is unmatched exactly when it
fits none (R95, R96; the strict reading of the patterns is the spec's decision D7, log 14). -/
def Obligations.DecoderFollowsOpcodeMap : Prop :=
  ∀ w : Word, (∀ row ∈ opcodeMap, row.fits w = true ↔ idOf (decodeWord w) = row.id) ∧
    (decodeWord w = .nopUnmatched w ↔ ∀ row ∈ opcodeMap, row.fits w = false)

/-- The decoder finds exactly R97's words unmatched, and there are 21582 of them (the strict reading of the patterns is
the spec's decision D7, log 14). -/
def Obligations.UnmatchedWordsAreListed : Prop :=
  (∀ w : Word, decodeWord w = .nopUnmatched w ↔ unmatchedWord w = true) ∧
    ((List.range 65536).filter fun n => unmatchedWord (BitVec.ofNat 16 n)).length = 21582

/-! ### The step -/

/-- R122, R64: with the Executor running, its turn come and both bytes in memory, the step fetches the word whose high
half is the byte at `PC`, advances `PC` by 2, and is `exec` of the decoded instruction at that state. That an empty
schedule gives the Executor the turn (the second clause) is the model's choice (log 1). -/
def Obligations.StepRunsDecodedInstruction : Prop :=
  ∀ (s : State) (turns : List Turn), s.run = .running → s.pc.toNat ≤ 0xFFE →
    step { s with schedule := .executor :: turns } =
      exec (decodeWord (s.mem.readByte s.pc.toNat ++ s.mem.readByte (s.pc.toNat + 1)))
        { s with schedule := turns, pc := s.pc + 2 } ∧
    step { s with schedule := [] } =
      exec (decodeWord (s.mem.readByte s.pc.toNat ++ s.mem.readByte (s.pc.toNat + 1)))
        { s with schedule := [], pc := s.pc + 2 }

/-- R121, R253 (the spec's decisions D3, D5; log 15, log 21): a fetch past memory halts with cause 1; `PC` is not
advanced and is recorded, with the lowest offending byte address. -/
def Obligations.FetchOutOfRangeHalts : Prop :=
  ∀ (s : State) (turns : List Turn), s.run = .running → 0xFFE < s.pc.toNat →
    step { s with schedule := .executor :: turns } =
      .next (faulted { s with schedule := turns } 1 s.pc (if s.pc = 0xFFF then 0x1000 else s.pc))

/-- R120, R233, R252 (log 2, the model's choice for a turn of an agent that has no step): while waiting the Executor's
turn changes nothing; in `HALTED` it is the model's fault, carrying the cause. -/
def Obligations.ExecutorDoesNotStepUnlessRunning : Prop :=
  ∀ (s : State) (turns : List Turn),
    (s.run = .waitKey → step { s with schedule := .executor :: turns } = .next { s with schedule := turns }) ∧
    (s.run = .halted → step { s with schedule := .executor :: turns } = .fault (.halted s.faultCause))

/-- Every instruction in every state answers a next state, and so does every step, but for the Executor's turn in
`HALTED` (log 2, the model's choice) and a reset whose ROM the loader rejects (R274, log 20): no instruction is
refused and none stops the model. -/
def Obligations.OnlyHaltOrRejectedRomStops : Prop :=
  (∀ (i : Instr) (s : State), ∃ t, exec i s = .next t) ∧
  ∀ s : State, (∃ t, step s = .next t) ∨
    (s.run = .halted ∧ (s.schedule = [] ∨ s.schedule.head? = some .executor) ∧
      step s = .fault (.halted s.faultCause)) ∨
    ∃ rom, s.schedule.head? = some (.reset rom) ∧ 3584 < rom.length ∧ step s = .fault .romTooLarge

/-- R258, R98: an unmatched word raises `Warn(W)` and changes nothing but the advanced `PC`; the run goes on. Where the
event is recorded is the model's choice (log 5); which words are unmatched follows R97, whose strict reading of the
patterns is the spec's decision D7 (log 14). -/
def Obligations.UnmatchedWordWarnsAndContinues : Prop :=
  (∀ (w : Word) (s : State), exec (.nopUnmatched w) s = .next { s with outputs := .warn w :: s.outputs }) ∧
  ∀ (s : State) (turns : List Turn) (w : Word), s.run = .running → s.pc.toNat ≤ 0xFFE →
    s.mem.readByte s.pc.toNat ++ s.mem.readByte (s.pc.toNat + 1) = w → unmatchedWord w = true →
    step { s with schedule := .executor :: turns } =
      .next { s with schedule := turns, pc := s.pc + 2, outputs := .warn w :: s.outputs }

/-- R142: a jump to its own address is an endless loop that changes nothing. -/
def Obligations.JumpToSelfChangesNothing : Prop :=
  ∀ (s : State) (nnn : Addr12), s.run = .running → s.schedule = [] → s.pc = nnn.setWidth 16 → s.pc.toNat ≤ 0xFFE →
    s.mem.readByte s.pc.toNat ++ s.mem.readByte (s.pc.toNat + 1) = encodeWord (.jp nnn) → step s = .next s

/-! ### Control transfer -/

/-- R142, R148: JP sets `PC` to the zero-extended `NNN`; JP_V0 adds `V[0]`, and the sum is neither masked nor wrapped.
Nothing else changes. -/
def Obligations.JumpTargets : Prop :=
  ∀ (nnn : Addr12) (s : State),
    (∃ t, exec (.jp nnn) s = .next t ∧ t.pc.toNat = nnn.toNat ∧ t = { s with pc := t.pc }) ∧
    ∃ t, exec (.jpV0 nnn) s = .next t ∧ t.pc.toNat = nnn.toNat + (s.getV 0).toNat ∧ t = { s with pc := t.pc }

/-- R143, R31: CALL pushes the advanced `PC` into the next slot and jumps; with 32 frames it raises `StackOverflow`
and nothing is pushed (its code, address and information: R251, R252, the spec's decision D5, log 21). -/
def Obligations.CallPushesReturnAddress : Prop :=
  ∀ (nnn : Addr12) (s : State),
    (s.sp < 31 → ∃ t, exec (.call nnn) s = .next t ∧ t.sp = s.sp + 1 ∧
      (∀ j : Fin 32, t.stk[j] = if (j.val : Int) = s.sp + 1 then s.pc else s.stk[j]) ∧
      t.pc = nnn.setWidth 16 ∧ t = { s with pc := t.pc, depth := t.depth, stk := t.stk }) ∧
    (s.sp = 31 → exec (.call nnn) s = .next (faulted s 3 (s.pc - 2) 0))

/-- R141, R32: RET takes the newest slot into `PC`; with no frame it raises `StackUnderflow` and the stack is
untouched (its code, address and information: R251, R252, the spec's decision D5, log 21). -/
def Obligations.ReturnPopsIntoPc : Prop :=
  ∀ s : State,
    (0 ≤ s.sp → ∃ t, exec .ret s = .next t ∧ t.sp = s.sp - 1 ∧
      (∀ j : Fin 32, (j.val : Int) = s.sp → t.pc = s.stk[j]) ∧ t = { s with pc := t.pc, depth := t.depth }) ∧
    (s.sp = -1 → exec .ret s = .next (faulted s 4 (s.pc - 2) 0))

/-- The source's subroutine round trip: RET after CALL, whatever the subroutine did outside the stack, resumes after
the CALL with `SP` restored. -/
def Obligations.CallThenReturnRoundTrip : Prop :=
  ∀ (nnn : Addr12) (s t u : State), s.sp < 31 → exec (.call nnn) s = .next t → u.depth = t.depth → u.stk = t.stk →
    ∃ r, exec .ret u = .next r ∧ r.pc = s.pc ∧ r.sp = s.sp ∧ r = { u with pc := r.pc, depth := r.depth }

/-- R29 to R32: the stack returns what was pushed, newest first, `SP` comes back, and the frames below are untouched.
-/
def Obligations.StackIsLastInFirstOut : Prop :=
  ∀ (s : State) (ws : List Word), s.depth.val + ws.length ≤ 32 →
    ∃ t u, pushAll s ws = some t ∧ t.sp = s.sp + ws.length ∧ popAll t ws.length = some (ws.reverse, u) ∧
      u.sp = s.sp ∧ ∀ j : Fin 32, j.val < s.depth.val → u.stk[j] = s.stk[j]

/-- R144 to R147: the four compare-and-skip instructions add a further 2 to `PC` exactly when their condition holds,
and change nothing else. -/
def Obligations.CompareAndSkip : Prop :=
  ∀ (x y : Nibble) (nn : Byte) (s : State),
    exec (.seImm x nn) s = .next (if s.getV x = nn then { s with pc := s.pc + 2 } else s) ∧
    exec (.sneImm x nn) s = .next (if s.getV x ≠ nn then { s with pc := s.pc + 2 } else s) ∧
    exec (.seReg x y) s = .next (if s.getV x = s.getV y then { s with pc := s.pc + 2 } else s) ∧
    exec (.sneReg x y) s = .next (if s.getV x ≠ s.getV y then { s with pc := s.pc + 2 } else s)

/-! ### Registers, arithmetic, logic, shifts, random -/

/-- R161 to R166: loads, add-immediate and the three logic instructions write `V[X]` alone; VF is no flag output. -/
def Obligations.LoadsAndLogicWriteOneRegister : Prop :=
  ∀ (x y : Nibble) (nn : Byte) (s : State),
    (∃ t, exec (.ldImm x nn) s = .next t ∧ WritesRegister s t x nn) ∧
    (∃ t, exec (.addImm x nn) s = .next t ∧
      WritesRegister s t x (BitVec.ofNat 8 (((s.getV x).toNat + nn.toNat) % 256))) ∧
    (∃ t, exec (.ldReg x y) s = .next t ∧ WritesRegister s t x (s.getV y)) ∧
    (∃ t, exec (.or x y) s = .next t ∧ WritesRegister s t x (s.getV x ||| s.getV y)) ∧
    (∃ t, exec (.and x y) s = .next t ∧ WritesRegister s t x (s.getV x &&& s.getV y)) ∧
    (∃ t, exec (.xor x y) s = .next t ∧ WritesRegister s t x (s.getV x ^^^ s.getV y))

/-- R167: ADD_REG. The sum goes to `V[X]`, the carry to VF; with `X = 15` the sum wins and the carry is lost (the
order of the two writes is the spec's decision D6, log 12). -/
def Obligations.AddRegisterCarry : Prop :=
  ∀ (x y : Nibble) (s : State), ∃ t, exec (.addReg x y) s = .next t ∧ t = { s with v := t.v } ∧
    (t.getV x).toNat = ((s.getV x).toNat + (s.getV y).toNat) % 256 ∧
    (x ≠ 15 → t.getV 15 = bit (255 < (s.getV x).toNat + (s.getV y).toNat)) ∧
    ∀ r, r ≠ x → r ≠ 15 → t.getV r = s.getV r

/-- R168: SUB, the strict compare to VF and the wrapped difference to `V[X]`, with the four cases of `X`, `Y` being 15
(the spec's decision D6, log 12). -/
def Obligations.SubtractBorrow : Prop :=
  ∀ (x y : Nibble) (s : State), ∃ t, exec (.sub x y) s = .next t ∧ t = { s with v := t.v } ∧
    (x ≠ 15 → y ≠ 15 → t.getV x = s.getV x - s.getV y ∧ t.getV 15 = bit (s.getV y < s.getV x)) ∧
    (x ≠ 15 → y = 15 → t.getV x = s.getV x - bit (s.getV 15 < s.getV x) ∧ t.getV 15 = bit (s.getV 15 < s.getV x)) ∧
    (x = 15 → y ≠ 15 → t.getV 15 = bit (s.getV y < s.getV 15) - s.getV y) ∧
    (x = 15 → y = 15 → t.getV 15 = 0) ∧
    ∀ r, r ≠ x → r ≠ 15 → t.getV r = s.getV r

/-- R169, R99: SHR shifts `V[X]` in place, VF is the bit shifted out, and with `X = 15` VF ends 0 (the spec's decision
D6, log 12); `Y` is ignored. -/
def Obligations.ShiftRightInPlace : Prop :=
  ∀ (x y : Nibble) (s : State), ∃ t, exec (.shr x y) s = .next t ∧ t = { s with v := t.v } ∧
    (x ≠ 15 → (t.getV x).toNat = (s.getV x).toNat / 2 ∧ (t.getV 15).toNat = (s.getV x).toNat % 2) ∧
    (x = 15 → t.getV 15 = 0) ∧ (∀ r, r ≠ x → r ≠ 15 → t.getV r = s.getV r) ∧
    ∀ y', exec (.shr x y') s = .next t

/-- R170 (the document's literal, followed by the spec's decision D27; log 18): SUBN computes `V[X] - V[Y]` with the
flag `V[Y] > V[X]`, with the four cases of `X`, `Y` being 15 (the spec's decision D6, log 12). -/
def Obligations.SubtractReversedFlag : Prop :=
  ∀ (x y : Nibble) (s : State), ∃ t, exec (.subn x y) s = .next t ∧ t = { s with v := t.v } ∧
    (x ≠ 15 → y ≠ 15 → t.getV x = s.getV x - s.getV y ∧ t.getV 15 = bit (s.getV x < s.getV y)) ∧
    (x ≠ 15 → y = 15 → t.getV x = s.getV x - bit (s.getV x < s.getV 15) ∧ t.getV 15 = bit (s.getV x < s.getV 15)) ∧
    (x = 15 → y ≠ 15 → t.getV 15 = bit (s.getV 15 < s.getV y) - s.getV y) ∧
    (x = 15 → y = 15 → t.getV 15 = 0) ∧
    ∀ r, r ≠ x → r ≠ 15 → t.getV r = s.getV r

/-- R171: SHL copies `V[Y]`, VF is bit 7 of it and `V[X]` its double; with `X = 15` VF ends 2 or 0 (the spec's
decision D6, log 12). -/
def Obligations.ShiftLeftCopiesSource : Prop :=
  ∀ (x y : Nibble) (s : State), ∃ t, exec (.shl x y) s = .next t ∧ t = { s with v := t.v } ∧
    (x ≠ 15 → (t.getV x).toNat = 2 * (s.getV y).toNat % 256 ∧ (t.getV 15).toNat = (s.getV y).toNat / 128) ∧
    (x = 15 → (t.getV 15).toNat = 2 * ((s.getV y).toNat / 128)) ∧
    ∀ r, r ≠ x → r ≠ 15 → t.getV r = s.getV r

/-- R172, R45: RND writes the drawn byte under the mask to `V[X]`, whatever the draw; every value inside the mask is
given by some draw, and each draw is used once. -/
def Obligations.RandomByteUnderMask : Prop :=
  ∀ (x : Nibble) (nn : Byte) (s : State), (∃ t, exec (.rnd x nn) s = .next t ∧
      t.getV x = Config.randByte s.draws &&& nn ∧ t.getV x &&& ~~~nn = 0 ∧ (∀ r, r ≠ x → t.getV r = s.getV r) ∧
      t = { s with v := t.v, draws := s.draws + 1 }) ∧
    ∀ b : Byte, b &&& ~~~nn = 0 ↔ ∃ draw : Byte, draw &&& nn = b

/-! ### Index register and memory -/

/-- R190: LD_INDEX. -/
def Obligations.IndexLoadsImmediate : Prop :=
  ∀ (nnn : Addr12) (s : State), ∃ t, exec (.ldIndex nnn) s = .next t ∧ t.i.toNat = nnn.toNat ∧ t = { s with i := t.i }

/-- R191 (16-bit and unmasked by the spec's decision D3, log 15): ADD_INDEX wraps at 65536 and writes no flag. -/
def Obligations.IndexAddWrapsAt65536 : Prop :=
  ∀ (x : Nibble) (s : State), ∃ t, exec (.addIndex x) s = .next t ∧
    t.i.toNat = (s.i.toNat + (s.getV x).toNat) % 65536 ∧ t = { s with i := t.i }

/-- R192 (formula: the spec's decision D19, log 10): LD_FONT gives 0x050 + 5 * the low nibble, 0x050 to 0x09B; in the
memory of reset the five bytes there are the default font's glyph (R298, log 10). -/
def Obligations.FontAddressOfDigit : Prop :=
  ∀ (x : Nibble) (s : State), ∃ t, exec (.ldFont x) s = .next t ∧ t.i.toNat = 0x50 + 5 * ((s.getV x).toNat % 16) ∧
    t = { s with i := t.i } ∧ t.i.toNat ≤ 0x9B ∧
    State.reset.mem.readBytes t.i.toNat 5 = (Config.defaultFont.drop (5 * ((s.getV x).toNat % 16))).take 5

/-- R193 (all or nothing by the spec's decision D4, log 21): BCD stores the three decimal digits of `V[X]` at `I`, `I
+ 1`, `I + 2`; every other byte, `I` and everything else is as before; out of range it raises `MemOutOfRange` and
nothing is written. -/
def Obligations.BcdStoresDecimalDigits : Prop :=
  ∀ (x : Nibble) (s : State), MemoryCanonical s →
    (s.i.toNat + 2 ≤ 0xFFF → ∃ t, exec (.bcd x) s = .next t ∧
      (let h := (t.mem.readByte s.i.toNat).toNat
       let d := (t.mem.readByte (s.i.toNat + 1)).toNat
       let o := (t.mem.readByte (s.i.toNat + 2)).toNat
       h * 100 + d * 10 + o = (s.getV x).toNat ∧ h ≤ 2 ∧ d ≤ 9 ∧ o ≤ 9) ∧
      (∀ a, a < s.i.toNat ∨ s.i.toNat + 2 < a → t.mem.readByte a = s.mem.readByte a) ∧ t = { s with mem := t.mem }) ∧
    (0xFFF < s.i.toNat + 2 → exec (.bcd x) s = .next (faulted s 2 (s.pc - 2) (offending s.i)))

/-- R194 (all or nothing by the spec's decision D4, log 21): STORE_REGS stores `V[0]` to `V[X]` from `I` up and moves
`I` past them; every other byte and everything else is as before; out of range nothing is written. -/
def Obligations.StoreRegistersAtIndex : Prop :=
  ∀ (x : Nibble) (s : State), MemoryCanonical s →
    (s.i.toNat + x.toNat ≤ 0xFFF → ∃ t, exec (.storeRegs x) s = .next t ∧
      (∀ r : Nibble, r.toNat ≤ x.toNat → t.mem.readByte (s.i.toNat + r.toNat) = s.getV r) ∧
      (∀ a, a < s.i.toNat ∨ s.i.toNat + x.toNat < a → t.mem.readByte a = s.mem.readByte a) ∧
      t.i.toNat = s.i.toNat + x.toNat + 1 ∧ t = { s with mem := t.mem, i := t.i }) ∧
    (0xFFF < s.i.toNat + x.toNat → exec (.storeRegs x) s = .next (faulted s 2 (s.pc - 2) (offending s.i)))

/-- R195 (all or nothing by the spec's decision D4, log 21): LOAD_REGS loads `V[0]` to `V[X]` from `I` up and moves
`I` past them; higher registers and everything else are as before; out of range no register is loaded. -/
def Obligations.LoadRegistersFromIndex : Prop :=
  ∀ (x : Nibble) (s : State),
    (s.i.toNat + x.toNat ≤ 0xFFF → ∃ t, exec (.loadRegs x) s = .next t ∧
      (∀ r : Nibble, t.getV r = if r.toNat ≤ x.toNat then s.mem.readByte (s.i.toNat + r.toNat) else s.getV r) ∧
      t.i.toNat = s.i.toNat + x.toNat + 1 ∧ t = { s with v := t.v, i := t.i }) ∧
    (0xFFF < s.i.toNat + x.toNat → exec (.loadRegs x) s = .next (faulted s 2 (s.pc - 2) (offending s.i)))

/-- R194 and R195 together: what FX55 stored, FX65 from the same `I` loads back, whatever the registers held since. -/
def Obligations.StoreThenLoadRestoresRegisters : Prop :=
  ∀ (x : Nibble) (s t : State) (v : Vector Byte 16), MemoryCanonical s → s.i.toNat + x.toNat ≤ 0xFFF →
    exec (.storeRegs x) s = .next t →
    ∃ u, exec (.loadRegs x) { t with i := s.i, v := v } = .next u ∧ u.i = t.i ∧
      ∀ r : Nibble, r.toNat ≤ x.toNat → u.getV r = s.getV r

/-- R66, R67 (the range check is the spec's decision D3, log 15): a byte written reads back, no other byte changes,
the canonical form is kept, and above 0xFFF the write does not happen. -/
def Obligations.WrittenByteReadsBack : Prop :=
  ∀ (s : State) (addr : Word) (b : Byte), MemoryCanonical s →
    (addr.toNat ≤ 0xFFF → ∃ t, s.memWrite addr [b] = .ok t ∧ t.memRead addr 1 = .ok [b] ∧ MemoryCanonical t ∧
      (∀ a, a ≠ addr.toNat → t.mem.readByte a = s.mem.readByte a) ∧ t = { s with mem := t.mem }) ∧
    (0xFFF < addr.toNat → s.memWrite addr [b] = .error addr ∧ s.memRead addr 1 = .error addr)

/-- R75: an FX55 over the next instruction is seen by the next fetch. -/
def Obligations.StoreIsSeenByNextFetch : Prop :=
  ∀ (x : Nibble) (s t : State), MemoryCanonical s → s.i = s.pc → 1 ≤ x.toNat → s.pc.toNat + x.toNat ≤ 0xFFF →
    exec (.storeRegs x) s = .next t → fetch t = .ok (s.getV 0 ++ s.getV 1)

/-! ### Display -/

/-- R210: CLS turns every pixel off and changes nothing else. -/
def Obligations.ClearTurnsEveryPixelOff : Prop :=
  ∀ s : State, ∃ t, exec .cls s = .next t ∧ (∀ c r, dispIsSet t.plane c r = false) ∧ t = { s with plane := t.plane }

/-- R211 to R213 (clipped rows unread and the check before VF is reset: the spec's decision D13, log 17): the loop
over rows and bits is one exclusive OR of the clipped sprite onto the plane, VF is 1 exactly when a lit pixel was
turned off, and nothing else changes. -/
def Obligations.DrawIsExclusiveOr : Prop :=
  ∀ (x y n : Nibble) (s : State), SpriteInRange s y n → ∃ t, exec (.drw x y n) s = .next t ∧
    (∀ c r, dispIsSet t.plane c r = (dispIsSet s.plane c r ^^ spriteBit s x y n c r)) ∧
    t.getV 15 = bit (∃ c r, spriteBit s x y n c r = true ∧ dispIsSet s.plane c r = true) ∧
    (∀ r, r ≠ 15 → t.getV r = s.getV r) ∧ t = { s with v := t.v, plane := t.plane }

/-- R213 (the spec's decision D13, log 17): a surviving row past memory raises `MemOutOfRange` before VF is reset and
before any pixel changes; with `N = 0` the only effect is VF <- 0, wherever `I` points. -/
def Obligations.DrawOutOfRangeAndEmptySprite : Prop :=
  ∀ (x y n : Nibble) (s : State),
    (¬SpriteInRange s y n → exec (.drw x y n) s = .next (faulted s 2 (s.pc - 2) (offending s.i))) ∧
    ∃ t, exec (.drw x y 0) s = .next t ∧ WritesRegister s t 15 0

/-- The source's test 4 (R213): drawn twice at one place the sprite leaves the plane as it was; the second VF is 1
exactly when a sprite bit fell on a pixel that was off; from a clear plane the first VF is 0. -/
def Obligations.DrawTwiceRestoresPlane : Prop :=
  ∀ (x y n : Nibble) (s t : State), x ≠ 15 → y ≠ 15 → SpriteInRange s y n → exec (.drw x y n) s = .next t →
    (∃ u, exec (.drw x y n) t = .next u ∧ u.plane = s.plane ∧
      u.getV 15 = bit (∃ c r, spriteBit s x y n c r = true ∧ dispIsSet s.plane c r = false)) ∧
    ((∀ c r, dispIsSet s.plane c r = false) → t.getV 15 = 0)

/-! ### Keypad and timers -/

/-- R230, R231 (the fault is the spec's decision D8, log 16; the answer is the free value of log 4): with a key number
in `V[X]` the port is polled once, SKP skips exactly when the key is down and SKNP exactly when it is not. -/
def Obligations.KeySkipsFollowThePort : Prop :=
  ∀ (x : Nibble) (s : State), (s.getV x).toNat ≤ 15 →
    (exec (.skp x) s = .next { s with
      draws := s.draws + 1
      pc := if Config.keyDown s.draws ((s.getV x).setWidth 4) = true then s.pc + 2 else s.pc }) ∧
    exec (.sknp x) s = .next { s with
      draws := s.draws + 1
      pc := if Config.keyDown s.draws ((s.getV x).setWidth 4) = true then s.pc else s.pc + 2 }

/-- R257 (the spec's decision D8, log 16): a key number above 15 halts with cause 5 and the value; the port is not
polled. -/
def Obligations.KeyNumberAbove15Halts : Prop :=
  ∀ (x : Nibble) (s : State), 15 < (s.getV x).toNat →
    exec (.skp x) s = .next (faulted s 5 (s.pc - 2) ((s.getV x).setWidth 16)) ∧
    exec (.sknp x) s = .next (faulted s 5 (s.pc - 2) ((s.getV x).setWidth 16))

/-- R232, R235, R236: FX07 reads `DT`, FX15 and FX18 write `DT` and `ST`; FX18 issues no Audio command. -/
def Obligations.TimerMoves : Prop :=
  ∀ (x : Nibble) (s : State),
    (∃ t, exec (.ldVxDt x) s = .next t ∧ WritesRegister s t x s.dt) ∧
    exec (.ldDtVx x) s = .next { s with dt := s.getV x } ∧
    exec (.ldStVx x) s = .next { s with st := s.getV x }

/-- R233, R234, R44 (the spec's decision D18, log 22): FX0A parks the Executor and writes no general register; a key
event while waiting puts the key's number in the register FX0A named and lets the Executor run, at the instruction
after the FX0A; at any other time the event is dropped without trace. -/
def Obligations.KeyWaitAndKeyDelivery : Prop :=
  (∀ (x : Nibble) (s : State), exec (.ldVxKey x) s = .next { s with run := .waitKey, waitReg := x }) ∧
  ∀ (k : Nibble) (s : State) (turns : List Turn),
    (s.run = .waitKey → ∃ t, step { s with schedule := .keyEvent k :: turns } = .next t ∧
      (t.getV s.waitReg).toNat = k.toNat ∧ (∀ r, r ≠ s.waitReg → t.getV r = s.getV r) ∧
      t = { s with schedule := turns, v := t.v, run := .running }) ∧
    (s.run ≠ .waitKey → step { s with schedule := .keyEvent k :: turns } = .next { s with schedule := turns })

/-- R263 and the source's test 5 over any number of ticks: each delay tick takes `DT` down by one, clamped at 0, and
changes nothing else; so `n` of them leave `DT - n`, not below 0. That they do so whatever `RUN` is, in `HALTED` too,
is R266, the spec's decision D14 (log 2). -/
def Obligations.DelayTicksDecayToZero : Prop :=
  ∀ (n : Nat) (s : State) (turns : List Turn),
    Sys2Proof.core.run n { s with schedule := List.replicate n .delayTick ++ turns } =
      .next { s with schedule := turns, dt := BitVec.ofNat 8 (s.dt.toNat - n) }

/-- R264 (the exact commands are the spec's decision D15, log 23; their record is log 5): the sound tick takes `ST`
down by one and issues `play`, then `stop` when it is 0, so a tone sounds after it exactly when `ST` is not 0. -/
def Obligations.SoundTickDrivesAudio : Prop :=
  ∀ (s : State) (turns : List Turn), ∃ t, step { s with schedule := .soundTick :: turns } = .next t ∧
    t.st.toNat = s.st.toNat - 1 ∧
    t.outputs = (if s.st.toNat = 0 then [.audioStop] else if s.st.toNat = 1 then [.audioStop, .audioPlay]
      else [.audioPlay]) ++ s.outputs ∧
    (toneOn t.outputs = true ↔ t.st ≠ 0) ∧ t = { s with schedule := turns, st := t.st, outputs := t.outputs }

/-- R265: an instruction that does not touch `DT` gives the same state whether a delay tick falls before or after it.
-/
def Obligations.DelayTickCommutesWithInstructions : Prop :=
  ∀ (i : Instr) (s t : State), (∀ x, i ≠ .ldVxDt x) → (∀ x, i ≠ .ldDtVx x) → exec i s = .next t →
    exec i (delayTick s) = .next (delayTick t)

/-! ### Rules of the whole machine -/

/-- R22: an instruction step changes no general register but those R22 lists for it. -/
def Obligations.GeneralRegistersFrame : Prop :=
  ∀ (i : Instr) (s t : State) (r : Nibble), exec i s = .next t → ¬mayWriteV i r → t.getV r = s.getV r

/-- R125 over all instructions: `I`, `SP` and the slots, `DT`, `ST`, the display plane, memory (every byte), `PC`,
`RUN`, `WAIT_REG` and the fault registers change only under the instructions whose rules write them, `RUN` only under
FX0A and the instructions that may fault, and the fault registers only when such an instruction halts the core (codes
and registers: the spec's decision D5, log 21). Of the model's own fields, an instruction adds to the outputs only when
unmatched (log 5), takes a free value only under RND, SKP and SKNP (log 3, log 4), and never touches the schedule
(log 1). -/
def Obligations.SpecialStateFrame : Prop :=
  ∀ (i : Instr) (s t : State), exec i s = .next t →
    ((∀ nnn, i ≠ .ldIndex nnn) → (∀ x, i ≠ .addIndex x ∧ i ≠ .ldFont x ∧ i ≠ .storeRegs x ∧ i ≠ .loadRegs x) →
      t.i = s.i) ∧
    ((∀ nnn, i ≠ .call nnn) → t.stk = s.stk ∧ (i ≠ .ret → t.sp = s.sp)) ∧
    ((∀ x, i ≠ .ldDtVx x) → t.dt = s.dt) ∧ ((∀ x, i ≠ .ldStVx x) → t.st = s.st) ∧
    (i ≠ .cls → (∀ x y n, i ≠ .drw x y n) → t.plane = s.plane) ∧
    ((∀ x, i ≠ .bcd x ∧ i ≠ .storeRegs x) → ∀ a, t.mem.readByte a = s.mem.readByte a) ∧
    ((∀ x, i ≠ .ldVxKey x) → t.waitReg = s.waitReg) ∧ ((∀ w, i ≠ .nopUnmatched w) → t.outputs = s.outputs) ∧
    (¬mayMovePc i → t.pc = s.pc) ∧ (¬mayFault i → (∀ x, i ≠ .ldVxKey x) → t.run = s.run) ∧
    (¬mayFault i ∨ t.run ≠ .halted →
      t.faultCause = s.faultCause ∧ t.faultPc = s.faultPc ∧ t.faultInfo = s.faultInfo) ∧
    ((∀ x nn, i ≠ .rnd x nn) → (∀ x, i ≠ .skp x ∧ i ≠ .sknp x) → t.draws = s.draws) ∧ t.schedule = s.schedule

/-- R25 over all instructions: inside a handler `PC` moves only under the transfers and the skips, and a skip moves it
by exactly 2. -/
def Obligations.OnlyTransfersMovePc : Prop :=
  ∀ (i : Instr) (s t : State), exec i s = .next t → t.pc ≠ s.pc →
    i = .ret ∨ (∃ nnn, i = .jp nnn ∨ i = .call nnn ∨ i = .jpV0 nnn) ∨
      (t.pc = s.pc + 2 ∧ ((∃ x nn, i = .seImm x nn ∨ i = .sneImm x nn) ∨ (∃ x y, i = .seReg x y ∨ i = .sneReg x y) ∨
        ∃ x, i = .skp x ∨ i = .sknp x))

/-- R127, "No other instruction may suspend": only FX0A takes a running Executor into `WAIT_KEY`. -/
def Obligations.OnlyKeyWaitSuspends : Prop :=
  ∀ (i : Instr) (s t : State), s.run = .running → exec i s = .next t → t.run = .waitKey →
    ∃ x, i = .ldVxKey x ∧ t.waitReg = x

/-- R250, R252, R259 (codes and registers: the spec's decision D5, log 21): an instruction that halts the core has
raised one of the four handler faults, each of its own instructions, and has done nothing else: every fault is
precise. -/
def Obligations.HandlerFaultsArePrecise : Prop :=
  ∀ (i : Instr) (s t : State), s.run = .running → exec i s = .next t → t.run = .halted →
    t = faulted s t.faultCause (s.pc - 2) t.faultInfo ∧
    ((t.faultCause = 2 ∧ ((∃ x, i = .bcd x ∨ i = .storeRegs x ∨ i = .loadRegs x) ∨ ∃ x y n, i = .drw x y n) ∧
        t.faultInfo = offending s.i) ∨
      (t.faultCause = 3 ∧ (∃ nnn, i = .call nnn) ∧ s.sp = 31 ∧ t.faultInfo = 0) ∨
      (t.faultCause = 4 ∧ i = .ret ∧ s.sp = -1 ∧ t.faultInfo = 0) ∨
      (t.faultCause = 5 ∧ ∃ x, (i = .skp x ∨ i = .sknp x) ∧ 15 < (s.getV x).toNat ∧
        t.faultInfo = (s.getV x).setWidth 16))

/-- R252, R266, R292: only a reset leaves the halted state; until then nothing changes any more but the timers and
what the sound tick says to the Audio port (that ticks go on in `HALTED` is the spec's decision D14, log 2). -/
def Obligations.OnlyResetLeavesHalted : Prop :=
  ∀ s t : State, s.run = .halted → step s = .next t →
    (∃ rom, s.schedule.head? = some (.reset rom) ∧ t.run = .running) ∨
      t = { s with dt := t.dt, st := t.st, outputs := t.outputs, schedule := t.schedule }

/-- R120, R234, R273, R292: a waiting core leaves the wait by a key event or a reset alone, and until then nothing
changes but the timers and the Audio commands. -/
def Obligations.OnlyKeyEventOrResetEndsWait : Prop :=
  ∀ s t : State, s.run = .waitKey → step s = .next t →
    ((∃ k, s.schedule.head? = some (.keyEvent k)) ∨ ∃ rom, s.schedule.head? = some (.reset rom)) ∧ t.run = .running ∨
      t = { s with dt := t.dt, st := t.st, outputs := t.outputs, schedule := t.schedule }

/-! ### Reset, launch and invariants -/

/-- R49. `PC` and `SP` are the source's values, the zeros and `RUNNING` the spec's decisions D5, D9 and D12 (log 7,
log 11). Nothing is said of the stack slots and `WAIT_REG`, which R49 leaves unspecified. -/
def Obligations.ResetState : Prop :=
  State.reset.pc = 0x200 ∧ State.reset.sp = -1 ∧ (∀ x, State.reset.getV x = 0) ∧ State.reset.i = 0 ∧
    State.reset.dt = 0 ∧ State.reset.st = 0 ∧ State.reset.run = .running ∧ State.reset.faultCause = 0 ∧
    State.reset.faultPc = 0 ∧ State.reset.faultInfo = 0 ∧ ∀ c r, dispIsSet State.reset.plane c r = false

/-- R296, R297, R299 (the fill, the default font and the size limit: the spec's decisions D11, D20, D23; log 9, log
10): a ROM of at most 3584 bytes is launched into the memory image with the reset registers; a longer one is rejected.
-/
def Obligations.LaunchBuildsMemoryImage : Prop :=
  ∀ rom : List Byte,
    (rom.length ≤ 3584 → ∃ s, launch rom = .ok s ∧ s = { State.reset with mem := s.mem } ∧
      ∀ a, a ≤ 0xFFF → s.mem.readByte a =
        if 0x50 ≤ a ∧ a ≤ 0x9F then Config.defaultFont.getD (a - 0x50) 0
        else if 0x200 ≤ a ∧ a < 0x200 + rom.length then rom.getD (a - 0x200) 0 else 0) ∧
    (3584 < rom.length → launch rom = .error .romTooLarge)

/-- R290, R292: the reset input is a launch, whatever the core was doing; nothing of the machine survives it. A ROM
the loader rejects launches no core (R274). That the model's own fields go on is the model's choice (log 20). -/
def Obligations.ResetInputIsLaunch : Prop :=
  ∀ (rom : List Byte) (s : State) (turns : List Turn),
    (∀ l, launch rom = .ok l → step { s with schedule := .reset rom :: turns } =
      .next { l with schedule := turns, draws := s.draws, outputs := s.outputs }) ∧
    (launch rom = .error .romTooLarge → step { s with schedule := .reset rom :: turns } = .fault .romTooLarge)

/-- Every step keeps the memory in its canonical form inside 0x000 to 0xFFF (R60, R67). -/
def Obligations.StepKeepsMemoryCanonical : Prop :=
  ∀ s t : State, MemoryCanonical s → step s = .next t → MemoryCanonical t

/-- R25: every step keeps `PC` at most 0x10FE and the occupied slots at most 0x1000. -/
def Obligations.StepKeepsPcBounded : Prop :=
  ∀ s t : State, PcBounded s → step s = .next t → PcBounded t

/-- R35, R251: every step keeps the fault registers saying exactly whether the core has halted, with a code of the
table. -/
def Obligations.StepKeepsFaultRecord : Prop :=
  ∀ s t : State, FaultRecorded s → step s = .next t → FaultRecorded t

/-- The three invariants hold at reset. -/
def Obligations.ResetMeetsInvariants : Prop :=
  MemoryCanonical State.reset ∧ PcBounded State.reset ∧ FaultRecorded State.reset

/-- R25's conclusion, with the other invariants: in every state reached from the launch of any ROM under any schedule
of the agents' turns, `PC <= 0x10FE`, the memory is canonical and the fault registers are true. -/
def Obligations.ReachableStatesMeetInvariants : Prop :=
  ∀ s : State, Reachable s → s.pc.toNat ≤ 0x10FE ∧ MemoryCanonical s ∧ PcBounded s ∧ FaultRecorded s
end

