-- ==== Sys2Proof/Laws/PerInstr.lean ====
section
/-!
SUPPORT. Facts said once per constructor of `Instr`. `EncodeFits`: the encoder's word has every fixed bit of its
instruction's row of the opcode map (rule R96), so it fits that pattern.
-/

namespace Sys2Proof.Laws.EncodeFits

/-- A fact about each of the sixteen bit numbers, given one by one. -/
theorem forall_lt_16 {P : Nat → Prop} (h : P 0 ∧ P 1 ∧ P 2 ∧ P 3 ∧ P 4 ∧ P 5 ∧ P 6 ∧ P 7 ∧ P 8 ∧ P 9 ∧ P 10 ∧ P 11 ∧
    P 12 ∧ P 13 ∧ P 14 ∧ P 15) : ∀ i < 16, P i := by
  intro i hi
  interval_cases i <;> simp_all

/-- A word made of a primary nibble and twelve free bits keeps that nibble under the mask 0xF000. -/
theorem ofNNN_mask (a : Nibble) (n : Addr12) : ofNNN a n &&& 0xF000 = ofNNN a 0 := by
  refine BitVec.eq_of_getLsbD_eq (forall_lt_16 ?_)
  simp only [ofNNN, BitVec.getLsbD_and, BitVec.getLsbD_append]
  simp [-BitVec.getLsbD_eq_getElem]

/-- The same with the twelve bits given as `X` and `NN`. -/
theorem ofXNN_mask_high (a x : Nibble) (nn : Byte) : ofXNN a x nn &&& 0xF000 = ofNNN a 0 := by
  refine BitVec.eq_of_getLsbD_eq (forall_lt_16 ?_)
  simp only [ofXNN, ofNNN, BitVec.getLsbD_and, BitVec.getLsbD_append]
  simp [-BitVec.getLsbD_eq_getElem]

/-- The primary nibble and `NN` are kept under the mask 0xF0FF. -/
theorem ofXNN_mask_nn (a x : Nibble) (nn : Byte) : ofXNN a x nn &&& 0xF0FF = ofXNN a 0 nn := by
  refine BitVec.eq_of_getLsbD_eq (forall_lt_16 ?_)
  simp only [ofXNN, BitVec.getLsbD_and, BitVec.getLsbD_append]
  simp [-BitVec.getLsbD_eq_getElem]

/-- The primary nibble and `N` are kept under the mask 0xF00F. -/
theorem ofNibbles_mask (a x y n : Nibble) : ofNibbles a x y n &&& 0xF00F = ofNibbles a 0 0 n := by
  refine BitVec.eq_of_getLsbD_eq (forall_lt_16 ?_)
  simp only [ofNibbles, BitVec.getLsbD_and, BitVec.getLsbD_append]
  simp [-BitVec.getLsbD_eq_getElem]

/-- The primary nibble of a word of four nibbles is kept under the mask 0xF000. -/
theorem ofNibbles_mask_high (a x y n : Nibble) : ofNibbles a x y n &&& 0xF000 = ofNNN a 0 := by
  refine BitVec.eq_of_getLsbD_eq (forall_lt_16 ?_)
  simp only [ofNibbles, ofNNN, BitVec.getLsbD_and, BitVec.getLsbD_append]
  simp [-BitVec.getLsbD_eq_getElem]

/-- The row of the opcode map with an instruction's identifier fits its word. An unmatched word has no row. -/
def Statement (i : Instr) : Prop := ∀ r ∈ opcodeMap, r.id = idOf i → r.fits (encodeWord i) = true

/-- It is enough to name the one row with the identifier and to check its fixed bits. -/
theorem of_row (i : Instr) (r : OpcodeRow) (hid : idOf i = r.id) (hf : opcodeMap.filter (fun q => q.id == r.id) = [r])
    (h : encodeWord i &&& r.maskBits = r.matchBits) : Statement i := by
  intro q hq he
  have hm : q ∈ opcodeMap.filter (fun q => q.id == r.id) := List.mem_filter.mpr ⟨hq, by simp [he, hid]⟩
  rw [hf, List.mem_singleton] at hm
  subst hm
  simp [OpcodeRow.fits, h]

theorem cls : Statement (.cls) :=
  of_row _ ⟨"CLS", 0x00E0, 0xFFFF⟩ rfl (by decide) (by decide)

theorem ret : Statement (.ret) :=
  of_row _ ⟨"RET", 0x00EE, 0xFFFF⟩ rfl (by decide) (by decide)

theorem jp (nnn : Addr12) : Statement (.jp nnn) :=
  of_row _ ⟨"JP", 0x1000, 0xF000⟩ rfl (by decide) (by simp only [encodeWord, ofNNN_mask]; decide)

theorem call (nnn : Addr12) : Statement (.call nnn) :=
  of_row _ ⟨"CALL", 0x2000, 0xF000⟩ rfl (by decide) (by simp only [encodeWord, ofNNN_mask]; decide)

theorem seImm (x : Nibble) (nn : Byte) : Statement (.seImm x nn) :=
  of_row _ ⟨"SE_IMM", 0x3000, 0xF000⟩ rfl (by decide) (by simp only [encodeWord, ofXNN_mask_high]; decide)

theorem sneImm (x : Nibble) (nn : Byte) : Statement (.sneImm x nn) :=
  of_row _ ⟨"SNE_IMM", 0x4000, 0xF000⟩ rfl (by decide) (by simp only [encodeWord, ofXNN_mask_high]; decide)

theorem seReg (x y : Nibble) : Statement (.seReg x y) :=
  of_row _ ⟨"SE_REG", 0x5000, 0xF00F⟩ rfl (by decide) (by simp only [encodeWord, ofNibbles_mask]; decide)

theorem ldImm (x : Nibble) (nn : Byte) : Statement (.ldImm x nn) :=
  of_row _ ⟨"LD_IMM", 0x6000, 0xF000⟩ rfl (by decide) (by simp only [encodeWord, ofXNN_mask_high]; decide)

theorem addImm (x : Nibble) (nn : Byte) : Statement (.addImm x nn) :=
  of_row _ ⟨"ADD_IMM", 0x7000, 0xF000⟩ rfl (by decide) (by simp only [encodeWord, ofXNN_mask_high]; decide)

theorem ldReg (x y : Nibble) : Statement (.ldReg x y) :=
  of_row _ ⟨"LD_REG", 0x8000, 0xF00F⟩ rfl (by decide) (by simp only [encodeWord, ofNibbles_mask]; decide)

theorem or (x y : Nibble) : Statement (.or x y) :=
  of_row _ ⟨"OR", 0x8001, 0xF00F⟩ rfl (by decide) (by simp only [encodeWord, ofNibbles_mask]; decide)

theorem and (x y : Nibble) : Statement (.and x y) :=
  of_row _ ⟨"AND", 0x8002, 0xF00F⟩ rfl (by decide) (by simp only [encodeWord, ofNibbles_mask]; decide)

theorem xor (x y : Nibble) : Statement (.xor x y) :=
  of_row _ ⟨"XOR", 0x8003, 0xF00F⟩ rfl (by decide) (by simp only [encodeWord, ofNibbles_mask]; decide)

theorem addReg (x y : Nibble) : Statement (.addReg x y) :=
  of_row _ ⟨"ADD_REG", 0x8004, 0xF00F⟩ rfl (by decide) (by simp only [encodeWord, ofNibbles_mask]; decide)

theorem sub (x y : Nibble) : Statement (.sub x y) :=
  of_row _ ⟨"SUB", 0x8005, 0xF00F⟩ rfl (by decide) (by simp only [encodeWord, ofNibbles_mask]; decide)

theorem shr (x y : Nibble) : Statement (.shr x y) :=
  of_row _ ⟨"SHR", 0x8006, 0xF00F⟩ rfl (by decide) (by simp only [encodeWord, ofNibbles_mask]; decide)

theorem subn (x y : Nibble) : Statement (.subn x y) :=
  of_row _ ⟨"SUBN", 0x8007, 0xF00F⟩ rfl (by decide) (by simp only [encodeWord, ofNibbles_mask]; decide)

theorem shl (x y : Nibble) : Statement (.shl x y) :=
  of_row _ ⟨"SHL", 0x800E, 0xF00F⟩ rfl (by decide) (by simp only [encodeWord, ofNibbles_mask]; decide)

theorem sneReg (x y : Nibble) : Statement (.sneReg x y) :=
  of_row _ ⟨"SNE_REG", 0x9000, 0xF00F⟩ rfl (by decide) (by simp only [encodeWord, ofNibbles_mask]; decide)

theorem ldIndex (nnn : Addr12) : Statement (.ldIndex nnn) :=
  of_row _ ⟨"LD_INDEX", 0xA000, 0xF000⟩ rfl (by decide) (by simp only [encodeWord, ofNNN_mask]; decide)

theorem jpV0 (nnn : Addr12) : Statement (.jpV0 nnn) :=
  of_row _ ⟨"JP_V0", 0xB000, 0xF000⟩ rfl (by decide) (by simp only [encodeWord, ofNNN_mask]; decide)

theorem rnd (x : Nibble) (nn : Byte) : Statement (.rnd x nn) :=
  of_row _ ⟨"RND", 0xC000, 0xF000⟩ rfl (by decide) (by simp only [encodeWord, ofXNN_mask_high]; decide)

theorem drw (x y n : Nibble) : Statement (.drw x y n) :=
  of_row _ ⟨"DRW", 0xD000, 0xF000⟩ rfl (by decide) (by simp only [encodeWord, ofNibbles_mask_high]; decide)

theorem skp (x : Nibble) : Statement (.skp x) :=
  of_row _ ⟨"SKP", 0xE09E, 0xF0FF⟩ rfl (by decide) (by simp only [encodeWord, ofXNN_mask_nn]; decide)

theorem sknp (x : Nibble) : Statement (.sknp x) :=
  of_row _ ⟨"SKNP", 0xE0A1, 0xF0FF⟩ rfl (by decide) (by simp only [encodeWord, ofXNN_mask_nn]; decide)

theorem ldVxDt (x : Nibble) : Statement (.ldVxDt x) :=
  of_row _ ⟨"LD_VX_DT", 0xF007, 0xF0FF⟩ rfl (by decide) (by simp only [encodeWord, ofXNN_mask_nn]; decide)

theorem ldVxKey (x : Nibble) : Statement (.ldVxKey x) :=
  of_row _ ⟨"LD_VX_KEY", 0xF00A, 0xF0FF⟩ rfl (by decide) (by simp only [encodeWord, ofXNN_mask_nn]; decide)

theorem ldDtVx (x : Nibble) : Statement (.ldDtVx x) :=
  of_row _ ⟨"LD_DT_VX", 0xF015, 0xF0FF⟩ rfl (by decide) (by simp only [encodeWord, ofXNN_mask_nn]; decide)

theorem ldStVx (x : Nibble) : Statement (.ldStVx x) :=
  of_row _ ⟨"LD_ST_VX", 0xF018, 0xF0FF⟩ rfl (by decide) (by simp only [encodeWord, ofXNN_mask_nn]; decide)

theorem addIndex (x : Nibble) : Statement (.addIndex x) :=
  of_row _ ⟨"ADD_INDEX", 0xF01E, 0xF0FF⟩ rfl (by decide) (by simp only [encodeWord, ofXNN_mask_nn]; decide)

theorem ldFont (x : Nibble) : Statement (.ldFont x) :=
  of_row _ ⟨"LD_FONT", 0xF029, 0xF0FF⟩ rfl (by decide) (by simp only [encodeWord, ofXNN_mask_nn]; decide)

theorem bcd (x : Nibble) : Statement (.bcd x) :=
  of_row _ ⟨"BCD", 0xF033, 0xF0FF⟩ rfl (by decide) (by simp only [encodeWord, ofXNN_mask_nn]; decide)

theorem storeRegs (x : Nibble) : Statement (.storeRegs x) :=
  of_row _ ⟨"STORE_REGS", 0xF055, 0xF0FF⟩ rfl (by decide) (by simp only [encodeWord, ofXNN_mask_nn]; decide)

theorem loadRegs (x : Nibble) : Statement (.loadRegs x) :=
  of_row _ ⟨"LOAD_REGS", 0xF065, 0xF0FF⟩ rfl (by decide) (by simp only [encodeWord, ofXNN_mask_nn]; decide)

theorem nopUnmatched (w : Word) : Statement (.nopUnmatched w) := by
  intro r hr he
  have : ∀ q ∈ opcodeMap, q.id ≠ "NOP_UNMATCHED" := by decide
  exact absurd he (this r hr)

end Sys2Proof.Laws.EncodeFits
end

