-- ==== Sys2Proof/Laws/Decode.lean ====
section
/-!
SUPPORT. What each field of R91 reads from a word the encoder builds, and the word its fields build again: the lemmas
by which decoding is computed without unfolding bit vectors.
-/

namespace Sys2Proof

open Sys2Proof.Laws.EncodeFits (forall_lt_16)

/-- Two nibbles with the same four bits are equal. -/
theorem nibble_ext {a b : Nibble} (h : a.getLsbD 0 = b.getLsbD 0 ∧ a.getLsbD 1 = b.getLsbD 1 ∧
    a.getLsbD 2 = b.getLsbD 2 ∧ a.getLsbD 3 = b.getLsbD 3) : a = b := by
  refine BitVec.eq_of_getLsbD_eq fun i hi => ?_
  have : i = 0 ∨ i = 1 ∨ i = 2 ∨ i = 3 := by omega
  rcases this with rfl | rfl | rfl | rfl
  exacts [h.1, h.2.1, h.2.2.1, h.2.2.2]

/-- Every nibble is one of the sixteen digits. -/
theorem nibble_cases (a : Nibble) : a = 0x0 ∨ a = 0x1 ∨ a = 0x2 ∨ a = 0x3 ∨ a = 0x4 ∨ a = 0x5 ∨ a = 0x6 ∨ a = 0x7 ∨
    a = 0x8 ∨ a = 0x9 ∨ a = 0xA ∨ a = 0xB ∨ a = 0xC ∨ a = 0xD ∨ a = 0xE ∨ a = 0xF := by
  revert a; decide

@[simp] theorem fieldInstr_ofNibbles (a x y n : Nibble) : fieldInstr (ofNibbles a x y n) = a := by
  apply nibble_ext
  simp only [fieldInstr, ofNibbles, BitVec.getLsbD_extractLsb', BitVec.getLsbD_append]
  simp [-BitVec.getLsbD_eq_getElem]

@[simp] theorem fieldX_ofNibbles (a x y n : Nibble) : fieldX (ofNibbles a x y n) = x := by
  apply nibble_ext
  simp only [fieldX, ofNibbles, BitVec.getLsbD_extractLsb', BitVec.getLsbD_append]
  simp [-BitVec.getLsbD_eq_getElem]

@[simp] theorem fieldY_ofNibbles (a x y n : Nibble) : fieldY (ofNibbles a x y n) = y := by
  apply nibble_ext
  simp only [fieldY, ofNibbles, BitVec.getLsbD_extractLsb', BitVec.getLsbD_append]
  simp [-BitVec.getLsbD_eq_getElem]

@[simp] theorem fieldN_ofNibbles (a x y n : Nibble) : fieldN (ofNibbles a x y n) = n := by
  apply nibble_ext
  simp only [fieldN, ofNibbles, BitVec.getLsbD_extractLsb', BitVec.getLsbD_append]
  simp [-BitVec.getLsbD_eq_getElem]

@[simp] theorem fieldInstr_ofXNN (a x : Nibble) (nn : Byte) : fieldInstr (ofXNN a x nn) = a := by
  apply nibble_ext
  simp only [fieldInstr, ofXNN, BitVec.getLsbD_extractLsb', BitVec.getLsbD_append]
  simp [-BitVec.getLsbD_eq_getElem]

@[simp] theorem fieldX_ofXNN (a x : Nibble) (nn : Byte) : fieldX (ofXNN a x nn) = x := by
  apply nibble_ext
  simp only [fieldX, ofXNN, BitVec.getLsbD_extractLsb', BitVec.getLsbD_append]
  simp [-BitVec.getLsbD_eq_getElem]

@[simp] theorem fieldInstr_ofNNN (a : Nibble) (nnn : Addr12) : fieldInstr (ofNNN a nnn) = a := by
  apply nibble_ext
  simp only [fieldInstr, ofNNN, BitVec.getLsbD_extractLsb', BitVec.getLsbD_append]
  simp [-BitVec.getLsbD_eq_getElem]

@[simp] theorem fieldNN_ofXNN (a x : Nibble) (nn : Byte) : fieldNN (ofXNN a x nn) = nn := by
  refine BitVec.eq_of_getLsbD_eq fun i hi => ?_
  simp only [fieldNN, ofXNN, BitVec.getLsbD_extractLsb', BitVec.getLsbD_append]
  simp [hi, -BitVec.getLsbD_eq_getElem]

@[simp] theorem fieldNNN_ofNNN (a : Nibble) (nnn : Addr12) : fieldNNN (ofNNN a nnn) = nnn := by
  refine BitVec.eq_of_getLsbD_eq fun i hi => ?_
  simp only [fieldNNN, ofNNN, BitVec.getLsbD_extractLsb', BitVec.getLsbD_append]
  simp [hi, -BitVec.getLsbD_eq_getElem]

/-- The two bytes of a word, read back high half first, are the word (R64). -/
@[simp] theorem wordOfBytes_halves (w : Word) : wordOfBytes (w.extractLsb' 8 8) (w.extractLsb' 0 8) = w := by
  refine BitVec.eq_of_getLsbD_eq (forall_lt_16 ?_)
  simp only [wordOfBytes, BitVec.getLsbD_extractLsb', BitVec.getLsbD_append]
  simp [-BitVec.getLsbD_eq_getElem]

/-- A word is its four nibbles. -/
theorem ofNibbles_fields (w : Word) : ofNibbles (fieldInstr w) (fieldX w) (fieldY w) (fieldN w) = w := by
  refine BitVec.eq_of_getLsbD_eq (forall_lt_16 ?_)
  simp only [ofNibbles, fieldInstr, fieldX, fieldY, fieldN, BitVec.getLsbD_extractLsb', BitVec.getLsbD_append]
  simp [-BitVec.getLsbD_eq_getElem]

/-- A word is its primary nibble, `X` and `NN`. -/
theorem ofXNN_fields (w : Word) : ofXNN (fieldInstr w) (fieldX w) (fieldNN w) = w := by
  refine BitVec.eq_of_getLsbD_eq (forall_lt_16 ?_)
  simp only [ofXNN, fieldInstr, fieldX, fieldNN, BitVec.getLsbD_extractLsb', BitVec.getLsbD_append]
  simp [-BitVec.getLsbD_eq_getElem]

/-- A word is its primary nibble and `NNN`. -/
theorem ofNNN_fields (w : Word) : ofNNN (fieldInstr w) (fieldNNN w) = w := by
  refine BitVec.eq_of_getLsbD_eq (forall_lt_16 ?_)
  simp only [ofNNN, fieldInstr, fieldNNN, BitVec.getLsbD_extractLsb', BitVec.getLsbD_append]
  simp [-BitVec.getLsbD_eq_getElem]

/-- `decode` on the bytes of a word is `decodeWord` of that word. -/
theorem decode_bytesOfWord (w : Word) (rest : List Byte) : decode (bytesOfWord w ++ rest) = .ok (decodeWord w, rest) := by
  simp [bytesOfWord, decode]

end Sys2Proof
end

