-- ==== Sys2Proof/Laws/State.lean ====
section
/-!
SUPPORT. One lemma per field per named update of the state, each true by definition, so that no later proof unfolds a
record update.
-/

namespace Sys2Proof.Machine

variable (s : State)

/-! ### `setV` -/

@[simp] theorem State.setV_v (x : Nibble) (b : Byte) : (s.setV x b).v = s.v.set x.toNat b x.isLt := rfl
@[simp] theorem State.setV_i (x : Nibble) (b : Byte) : (s.setV x b).i = s.i := rfl
@[simp] theorem State.setV_pc (x : Nibble) (b : Byte) : (s.setV x b).pc = s.pc := rfl
@[simp] theorem State.setV_depth (x : Nibble) (b : Byte) : (s.setV x b).depth = s.depth := rfl
@[simp] theorem State.setV_stk (x : Nibble) (b : Byte) : (s.setV x b).stk = s.stk := rfl
@[simp] theorem State.setV_dt (x : Nibble) (b : Byte) : (s.setV x b).dt = s.dt := rfl
@[simp] theorem State.setV_st (x : Nibble) (b : Byte) : (s.setV x b).st = s.st := rfl
@[simp] theorem State.setV_run (x : Nibble) (b : Byte) : (s.setV x b).run = s.run := rfl
@[simp] theorem State.setV_waitReg (x : Nibble) (b : Byte) : (s.setV x b).waitReg = s.waitReg := rfl
@[simp] theorem State.setV_faultCause (x : Nibble) (b : Byte) : (s.setV x b).faultCause = s.faultCause := rfl
@[simp] theorem State.setV_faultPc (x : Nibble) (b : Byte) : (s.setV x b).faultPc = s.faultPc := rfl
@[simp] theorem State.setV_faultInfo (x : Nibble) (b : Byte) : (s.setV x b).faultInfo = s.faultInfo := rfl
@[simp] theorem State.setV_mem (x : Nibble) (b : Byte) : (s.setV x b).mem = s.mem := rfl
@[simp] theorem State.setV_plane (x : Nibble) (b : Byte) : (s.setV x b).plane = s.plane := rfl
@[simp] theorem State.setV_schedule (x : Nibble) (b : Byte) : (s.setV x b).schedule = s.schedule := rfl
@[simp] theorem State.setV_draws (x : Nibble) (b : Byte) : (s.setV x b).draws = s.draws := rfl
@[simp] theorem State.setV_outputs (x : Nibble) (b : Byte) : (s.setV x b).outputs = s.outputs := rfl

/-! ### `setI` -/

@[simp] theorem State.setI_v (w : Word) : (s.setI w).v = s.v := rfl
@[simp] theorem State.setI_i (w : Word) : (s.setI w).i = w := rfl
@[simp] theorem State.setI_pc (w : Word) : (s.setI w).pc = s.pc := rfl
@[simp] theorem State.setI_depth (w : Word) : (s.setI w).depth = s.depth := rfl
@[simp] theorem State.setI_stk (w : Word) : (s.setI w).stk = s.stk := rfl
@[simp] theorem State.setI_dt (w : Word) : (s.setI w).dt = s.dt := rfl
@[simp] theorem State.setI_st (w : Word) : (s.setI w).st = s.st := rfl
@[simp] theorem State.setI_run (w : Word) : (s.setI w).run = s.run := rfl
@[simp] theorem State.setI_waitReg (w : Word) : (s.setI w).waitReg = s.waitReg := rfl
@[simp] theorem State.setI_faultCause (w : Word) : (s.setI w).faultCause = s.faultCause := rfl
@[simp] theorem State.setI_faultPc (w : Word) : (s.setI w).faultPc = s.faultPc := rfl
@[simp] theorem State.setI_faultInfo (w : Word) : (s.setI w).faultInfo = s.faultInfo := rfl
@[simp] theorem State.setI_mem (w : Word) : (s.setI w).mem = s.mem := rfl
@[simp] theorem State.setI_plane (w : Word) : (s.setI w).plane = s.plane := rfl
@[simp] theorem State.setI_schedule (w : Word) : (s.setI w).schedule = s.schedule := rfl
@[simp] theorem State.setI_draws (w : Word) : (s.setI w).draws = s.draws := rfl
@[simp] theorem State.setI_outputs (w : Word) : (s.setI w).outputs = s.outputs := rfl

/-! ### `setPc` -/

@[simp] theorem State.setPc_v (w : Word) : (s.setPc w).v = s.v := rfl
@[simp] theorem State.setPc_i (w : Word) : (s.setPc w).i = s.i := rfl
@[simp] theorem State.setPc_pc (w : Word) : (s.setPc w).pc = w := rfl
@[simp] theorem State.setPc_depth (w : Word) : (s.setPc w).depth = s.depth := rfl
@[simp] theorem State.setPc_stk (w : Word) : (s.setPc w).stk = s.stk := rfl
@[simp] theorem State.setPc_dt (w : Word) : (s.setPc w).dt = s.dt := rfl
@[simp] theorem State.setPc_st (w : Word) : (s.setPc w).st = s.st := rfl
@[simp] theorem State.setPc_run (w : Word) : (s.setPc w).run = s.run := rfl
@[simp] theorem State.setPc_waitReg (w : Word) : (s.setPc w).waitReg = s.waitReg := rfl
@[simp] theorem State.setPc_faultCause (w : Word) : (s.setPc w).faultCause = s.faultCause := rfl
@[simp] theorem State.setPc_faultPc (w : Word) : (s.setPc w).faultPc = s.faultPc := rfl
@[simp] theorem State.setPc_faultInfo (w : Word) : (s.setPc w).faultInfo = s.faultInfo := rfl
@[simp] theorem State.setPc_mem (w : Word) : (s.setPc w).mem = s.mem := rfl
@[simp] theorem State.setPc_plane (w : Word) : (s.setPc w).plane = s.plane := rfl
@[simp] theorem State.setPc_schedule (w : Word) : (s.setPc w).schedule = s.schedule := rfl
@[simp] theorem State.setPc_draws (w : Word) : (s.setPc w).draws = s.draws := rfl
@[simp] theorem State.setPc_outputs (w : Word) : (s.setPc w).outputs = s.outputs := rfl

/-! ### `advance` -/

@[simp] theorem State.advance_v : (s.advance).v = s.v := rfl
@[simp] theorem State.advance_i : (s.advance).i = s.i := rfl
@[simp] theorem State.advance_pc : (s.advance).pc = s.pc + 2 := rfl
@[simp] theorem State.advance_depth : (s.advance).depth = s.depth := rfl
@[simp] theorem State.advance_stk : (s.advance).stk = s.stk := rfl
@[simp] theorem State.advance_dt : (s.advance).dt = s.dt := rfl
@[simp] theorem State.advance_st : (s.advance).st = s.st := rfl
@[simp] theorem State.advance_run : (s.advance).run = s.run := rfl
@[simp] theorem State.advance_waitReg : (s.advance).waitReg = s.waitReg := rfl
@[simp] theorem State.advance_faultCause : (s.advance).faultCause = s.faultCause := rfl
@[simp] theorem State.advance_faultPc : (s.advance).faultPc = s.faultPc := rfl
@[simp] theorem State.advance_faultInfo : (s.advance).faultInfo = s.faultInfo := rfl
@[simp] theorem State.advance_mem : (s.advance).mem = s.mem := rfl
@[simp] theorem State.advance_plane : (s.advance).plane = s.plane := rfl
@[simp] theorem State.advance_schedule : (s.advance).schedule = s.schedule := rfl
@[simp] theorem State.advance_draws : (s.advance).draws = s.draws := rfl
@[simp] theorem State.advance_outputs : (s.advance).outputs = s.outputs := rfl

/-! ### `skipIf` -/

@[simp] theorem State.skipIf_v (c : Bool) : (s.skipIf c).v = s.v := by cases c <;> rfl
@[simp] theorem State.skipIf_i (c : Bool) : (s.skipIf c).i = s.i := by cases c <;> rfl
@[simp] theorem State.skipIf_pc (c : Bool) : (s.skipIf c).pc = if c then s.pc + 2 else s.pc := by cases c <;> rfl
@[simp] theorem State.skipIf_depth (c : Bool) : (s.skipIf c).depth = s.depth := by cases c <;> rfl
@[simp] theorem State.skipIf_stk (c : Bool) : (s.skipIf c).stk = s.stk := by cases c <;> rfl
@[simp] theorem State.skipIf_dt (c : Bool) : (s.skipIf c).dt = s.dt := by cases c <;> rfl
@[simp] theorem State.skipIf_st (c : Bool) : (s.skipIf c).st = s.st := by cases c <;> rfl
@[simp] theorem State.skipIf_run (c : Bool) : (s.skipIf c).run = s.run := by cases c <;> rfl
@[simp] theorem State.skipIf_waitReg (c : Bool) : (s.skipIf c).waitReg = s.waitReg := by cases c <;> rfl
@[simp] theorem State.skipIf_faultCause (c : Bool) : (s.skipIf c).faultCause = s.faultCause := by cases c <;> rfl
@[simp] theorem State.skipIf_faultPc (c : Bool) : (s.skipIf c).faultPc = s.faultPc := by cases c <;> rfl
@[simp] theorem State.skipIf_faultInfo (c : Bool) : (s.skipIf c).faultInfo = s.faultInfo := by cases c <;> rfl
@[simp] theorem State.skipIf_mem (c : Bool) : (s.skipIf c).mem = s.mem := by cases c <;> rfl
@[simp] theorem State.skipIf_plane (c : Bool) : (s.skipIf c).plane = s.plane := by cases c <;> rfl
@[simp] theorem State.skipIf_schedule (c : Bool) : (s.skipIf c).schedule = s.schedule := by cases c <;> rfl
@[simp] theorem State.skipIf_draws (c : Bool) : (s.skipIf c).draws = s.draws := by cases c <;> rfl
@[simp] theorem State.skipIf_outputs (c : Bool) : (s.skipIf c).outputs = s.outputs := by cases c <;> rfl

/-! ### `setDt` -/

@[simp] theorem State.setDt_v (b : Byte) : (s.setDt b).v = s.v := rfl
@[simp] theorem State.setDt_i (b : Byte) : (s.setDt b).i = s.i := rfl
@[simp] theorem State.setDt_pc (b : Byte) : (s.setDt b).pc = s.pc := rfl
@[simp] theorem State.setDt_depth (b : Byte) : (s.setDt b).depth = s.depth := rfl
@[simp] theorem State.setDt_stk (b : Byte) : (s.setDt b).stk = s.stk := rfl
@[simp] theorem State.setDt_dt (b : Byte) : (s.setDt b).dt = b := rfl
@[simp] theorem State.setDt_st (b : Byte) : (s.setDt b).st = s.st := rfl
@[simp] theorem State.setDt_run (b : Byte) : (s.setDt b).run = s.run := rfl
@[simp] theorem State.setDt_waitReg (b : Byte) : (s.setDt b).waitReg = s.waitReg := rfl
@[simp] theorem State.setDt_faultCause (b : Byte) : (s.setDt b).faultCause = s.faultCause := rfl
@[simp] theorem State.setDt_faultPc (b : Byte) : (s.setDt b).faultPc = s.faultPc := rfl
@[simp] theorem State.setDt_faultInfo (b : Byte) : (s.setDt b).faultInfo = s.faultInfo := rfl
@[simp] theorem State.setDt_mem (b : Byte) : (s.setDt b).mem = s.mem := rfl
@[simp] theorem State.setDt_plane (b : Byte) : (s.setDt b).plane = s.plane := rfl
@[simp] theorem State.setDt_schedule (b : Byte) : (s.setDt b).schedule = s.schedule := rfl
@[simp] theorem State.setDt_draws (b : Byte) : (s.setDt b).draws = s.draws := rfl
@[simp] theorem State.setDt_outputs (b : Byte) : (s.setDt b).outputs = s.outputs := rfl

/-! ### `setSt` -/

@[simp] theorem State.setSt_v (b : Byte) : (s.setSt b).v = s.v := rfl
@[simp] theorem State.setSt_i (b : Byte) : (s.setSt b).i = s.i := rfl
@[simp] theorem State.setSt_pc (b : Byte) : (s.setSt b).pc = s.pc := rfl
@[simp] theorem State.setSt_depth (b : Byte) : (s.setSt b).depth = s.depth := rfl
@[simp] theorem State.setSt_stk (b : Byte) : (s.setSt b).stk = s.stk := rfl
@[simp] theorem State.setSt_dt (b : Byte) : (s.setSt b).dt = s.dt := rfl
@[simp] theorem State.setSt_st (b : Byte) : (s.setSt b).st = b := rfl
@[simp] theorem State.setSt_run (b : Byte) : (s.setSt b).run = s.run := rfl
@[simp] theorem State.setSt_waitReg (b : Byte) : (s.setSt b).waitReg = s.waitReg := rfl
@[simp] theorem State.setSt_faultCause (b : Byte) : (s.setSt b).faultCause = s.faultCause := rfl
@[simp] theorem State.setSt_faultPc (b : Byte) : (s.setSt b).faultPc = s.faultPc := rfl
@[simp] theorem State.setSt_faultInfo (b : Byte) : (s.setSt b).faultInfo = s.faultInfo := rfl
@[simp] theorem State.setSt_mem (b : Byte) : (s.setSt b).mem = s.mem := rfl
@[simp] theorem State.setSt_plane (b : Byte) : (s.setSt b).plane = s.plane := rfl
@[simp] theorem State.setSt_schedule (b : Byte) : (s.setSt b).schedule = s.schedule := rfl
@[simp] theorem State.setSt_draws (b : Byte) : (s.setSt b).draws = s.draws := rfl
@[simp] theorem State.setSt_outputs (b : Byte) : (s.setSt b).outputs = s.outputs := rfl

/-! ### `raise` -/

@[simp] theorem State.raise_v (k : FaultKind) (a info : Word) : (s.raise k a info).v = s.v := rfl
@[simp] theorem State.raise_i (k : FaultKind) (a info : Word) : (s.raise k a info).i = s.i := rfl
@[simp] theorem State.raise_pc (k : FaultKind) (a info : Word) : (s.raise k a info).pc = s.pc := rfl
@[simp] theorem State.raise_depth (k : FaultKind) (a info : Word) : (s.raise k a info).depth = s.depth := rfl
@[simp] theorem State.raise_stk (k : FaultKind) (a info : Word) : (s.raise k a info).stk = s.stk := rfl
@[simp] theorem State.raise_dt (k : FaultKind) (a info : Word) : (s.raise k a info).dt = s.dt := rfl
@[simp] theorem State.raise_st (k : FaultKind) (a info : Word) : (s.raise k a info).st = s.st := rfl
@[simp] theorem State.raise_run (k : FaultKind) (a info : Word) : (s.raise k a info).run = .halted := rfl
@[simp] theorem State.raise_waitReg (k : FaultKind) (a info : Word) : (s.raise k a info).waitReg = s.waitReg := rfl
@[simp] theorem State.raise_faultCause (k : FaultKind) (a info : Word) : (s.raise k a info).faultCause = k.code := rfl
@[simp] theorem State.raise_faultPc (k : FaultKind) (a info : Word) : (s.raise k a info).faultPc = a := rfl
@[simp] theorem State.raise_faultInfo (k : FaultKind) (a info : Word) : (s.raise k a info).faultInfo = info := rfl
@[simp] theorem State.raise_mem (k : FaultKind) (a info : Word) : (s.raise k a info).mem = s.mem := rfl
@[simp] theorem State.raise_plane (k : FaultKind) (a info : Word) : (s.raise k a info).plane = s.plane := rfl
@[simp] theorem State.raise_schedule (k : FaultKind) (a info : Word) : (s.raise k a info).schedule = s.schedule := rfl
@[simp] theorem State.raise_draws (k : FaultKind) (a info : Word) : (s.raise k a info).draws = s.draws := rfl
@[simp] theorem State.raise_outputs (k : FaultKind) (a info : Word) : (s.raise k a info).outputs = s.outputs := rfl

/-! ### `emit` -/

@[simp] theorem State.emit_v (o : Output) : (s.emit o).v = s.v := rfl
@[simp] theorem State.emit_i (o : Output) : (s.emit o).i = s.i := rfl
@[simp] theorem State.emit_pc (o : Output) : (s.emit o).pc = s.pc := rfl
@[simp] theorem State.emit_depth (o : Output) : (s.emit o).depth = s.depth := rfl
@[simp] theorem State.emit_stk (o : Output) : (s.emit o).stk = s.stk := rfl
@[simp] theorem State.emit_dt (o : Output) : (s.emit o).dt = s.dt := rfl
@[simp] theorem State.emit_st (o : Output) : (s.emit o).st = s.st := rfl
@[simp] theorem State.emit_run (o : Output) : (s.emit o).run = s.run := rfl
@[simp] theorem State.emit_waitReg (o : Output) : (s.emit o).waitReg = s.waitReg := rfl
@[simp] theorem State.emit_faultCause (o : Output) : (s.emit o).faultCause = s.faultCause := rfl
@[simp] theorem State.emit_faultPc (o : Output) : (s.emit o).faultPc = s.faultPc := rfl
@[simp] theorem State.emit_faultInfo (o : Output) : (s.emit o).faultInfo = s.faultInfo := rfl
@[simp] theorem State.emit_mem (o : Output) : (s.emit o).mem = s.mem := rfl
@[simp] theorem State.emit_plane (o : Output) : (s.emit o).plane = s.plane := rfl
@[simp] theorem State.emit_schedule (o : Output) : (s.emit o).schedule = s.schedule := rfl
@[simp] theorem State.emit_draws (o : Output) : (s.emit o).draws = s.draws := rfl
@[simp] theorem State.emit_outputs (o : Output) : (s.emit o).outputs = o :: s.outputs := rfl

/-! ### `draw` -/

@[simp] theorem State.draw_v : (s.draw).v = s.v := rfl
@[simp] theorem State.draw_i : (s.draw).i = s.i := rfl
@[simp] theorem State.draw_pc : (s.draw).pc = s.pc := rfl
@[simp] theorem State.draw_depth : (s.draw).depth = s.depth := rfl
@[simp] theorem State.draw_stk : (s.draw).stk = s.stk := rfl
@[simp] theorem State.draw_dt : (s.draw).dt = s.dt := rfl
@[simp] theorem State.draw_st : (s.draw).st = s.st := rfl
@[simp] theorem State.draw_run : (s.draw).run = s.run := rfl
@[simp] theorem State.draw_waitReg : (s.draw).waitReg = s.waitReg := rfl
@[simp] theorem State.draw_faultCause : (s.draw).faultCause = s.faultCause := rfl
@[simp] theorem State.draw_faultPc : (s.draw).faultPc = s.faultPc := rfl
@[simp] theorem State.draw_faultInfo : (s.draw).faultInfo = s.faultInfo := rfl
@[simp] theorem State.draw_mem : (s.draw).mem = s.mem := rfl
@[simp] theorem State.draw_plane : (s.draw).plane = s.plane := rfl
@[simp] theorem State.draw_schedule : (s.draw).schedule = s.schedule := rfl
@[simp] theorem State.draw_draws : (s.draw).draws = s.draws + 1 := rfl
@[simp] theorem State.draw_outputs : (s.draw).outputs = s.outputs := rfl

/-! ### `setPlane` -/

@[simp] theorem State.setPlane_v (p : Plane) : (s.setPlane p).v = s.v := rfl
@[simp] theorem State.setPlane_i (p : Plane) : (s.setPlane p).i = s.i := rfl
@[simp] theorem State.setPlane_pc (p : Plane) : (s.setPlane p).pc = s.pc := rfl
@[simp] theorem State.setPlane_depth (p : Plane) : (s.setPlane p).depth = s.depth := rfl
@[simp] theorem State.setPlane_stk (p : Plane) : (s.setPlane p).stk = s.stk := rfl
@[simp] theorem State.setPlane_dt (p : Plane) : (s.setPlane p).dt = s.dt := rfl
@[simp] theorem State.setPlane_st (p : Plane) : (s.setPlane p).st = s.st := rfl
@[simp] theorem State.setPlane_run (p : Plane) : (s.setPlane p).run = s.run := rfl
@[simp] theorem State.setPlane_waitReg (p : Plane) : (s.setPlane p).waitReg = s.waitReg := rfl
@[simp] theorem State.setPlane_faultCause (p : Plane) : (s.setPlane p).faultCause = s.faultCause := rfl
@[simp] theorem State.setPlane_faultPc (p : Plane) : (s.setPlane p).faultPc = s.faultPc := rfl
@[simp] theorem State.setPlane_faultInfo (p : Plane) : (s.setPlane p).faultInfo = s.faultInfo := rfl
@[simp] theorem State.setPlane_mem (p : Plane) : (s.setPlane p).mem = s.mem := rfl
@[simp] theorem State.setPlane_plane (p : Plane) : (s.setPlane p).plane = p := rfl
@[simp] theorem State.setPlane_schedule (p : Plane) : (s.setPlane p).schedule = s.schedule := rfl
@[simp] theorem State.setPlane_draws (p : Plane) : (s.setPlane p).draws = s.draws := rfl
@[simp] theorem State.setPlane_outputs (p : Plane) : (s.setPlane p).outputs = s.outputs := rfl

/-! ### `park` -/

@[simp] theorem State.park_v (x : Nibble) : (s.park x).v = s.v := rfl
@[simp] theorem State.park_i (x : Nibble) : (s.park x).i = s.i := rfl
@[simp] theorem State.park_pc (x : Nibble) : (s.park x).pc = s.pc := rfl
@[simp] theorem State.park_depth (x : Nibble) : (s.park x).depth = s.depth := rfl
@[simp] theorem State.park_stk (x : Nibble) : (s.park x).stk = s.stk := rfl
@[simp] theorem State.park_dt (x : Nibble) : (s.park x).dt = s.dt := rfl
@[simp] theorem State.park_st (x : Nibble) : (s.park x).st = s.st := rfl
@[simp] theorem State.park_run (x : Nibble) : (s.park x).run = .waitKey := rfl
@[simp] theorem State.park_waitReg (x : Nibble) : (s.park x).waitReg = x := rfl
@[simp] theorem State.park_faultCause (x : Nibble) : (s.park x).faultCause = s.faultCause := rfl
@[simp] theorem State.park_faultPc (x : Nibble) : (s.park x).faultPc = s.faultPc := rfl
@[simp] theorem State.park_faultInfo (x : Nibble) : (s.park x).faultInfo = s.faultInfo := rfl
@[simp] theorem State.park_mem (x : Nibble) : (s.park x).mem = s.mem := rfl
@[simp] theorem State.park_plane (x : Nibble) : (s.park x).plane = s.plane := rfl
@[simp] theorem State.park_schedule (x : Nibble) : (s.park x).schedule = s.schedule := rfl
@[simp] theorem State.park_draws (x : Nibble) : (s.park x).draws = s.draws := rfl
@[simp] theorem State.park_outputs (x : Nibble) : (s.park x).outputs = s.outputs := rfl

/-! ### Reading a general register after an update of something else -/

@[simp] theorem State.getV_setI (w : Word) (y : Nibble) : (s.setI w).getV y = s.getV y := rfl
@[simp] theorem State.getV_setPc (w : Word) (y : Nibble) : (s.setPc w).getV y = s.getV y := rfl
@[simp] theorem State.getV_advance (y : Nibble) : (s.advance).getV y = s.getV y := rfl
@[simp] theorem State.getV_skipIf (c : Bool) (y : Nibble) : (s.skipIf c).getV y = s.getV y := by cases c <;> rfl
@[simp] theorem State.getV_setDt (b : Byte) (y : Nibble) : (s.setDt b).getV y = s.getV y := rfl
@[simp] theorem State.getV_setSt (b : Byte) (y : Nibble) : (s.setSt b).getV y = s.getV y := rfl
@[simp] theorem State.getV_raise (k : FaultKind) (a info : Word) (y : Nibble) : (s.raise k a info).getV y = s.getV y := rfl
@[simp] theorem State.getV_emit (o : Output) (y : Nibble) : (s.emit o).getV y = s.getV y := rfl
@[simp] theorem State.getV_draw (y : Nibble) : (s.draw).getV y = s.getV y := rfl
@[simp] theorem State.getV_setPlane (p : Plane) (y : Nibble) : (s.setPlane p).getV y = s.getV y := rfl
@[simp] theorem State.getV_park (x : Nibble) (y : Nibble) : (s.park x).getV y = s.getV y := rfl

end Sys2Proof.Machine
end

