-- ==== Sys2Proof/Laws/Ops.lean ====
section
/-!
SUPPORT. What each shared operation over memory, registers, the stack, faults and the display can do, said once; the
provers cite these instead of unfolding the operations.
-/

namespace Sys2Proof.Machine

/-! ### General registers -/

theorem State.getV_setV (s : State) (x y : Nibble) (b : Byte) :
    (s.setV x b).getV y = if y = x then b else s.getV y := by
  by_cases h : y = x
  · subst h; simp [State.getV]
  · have hn : x.toNat ≠ y.toNat := fun e => h (BitVec.eq_of_toNat_eq e.symm)
    simp only [State.getV, State.setV_v, if_neg h]
    exact Vector.getElem_set_ne _ _ hn

@[simp] theorem State.getV_setV_self (s : State) (x : Nibble) (b : Byte) : (s.setV x b).getV x = b := by
  simp [State.getV_setV]

/-- An update that leaves the register file alone leaves every register alone. -/
theorem State.getV_congr {s t : State} (h : t.v = s.v) (x : Nibble) : t.getV x = s.getV x := by
  simp [State.getV, h]

/-- Two register files that read alike are equal. -/
theorem State.v_ext {s t : State} (h : ∀ x, s.getV x = t.getV x) : s.v = t.v := by
  apply Vector.ext
  intro k hk
  have e : (BitVec.ofNat 4 k).toNat = k := by simp [BitVec.toNat_ofNat]; omega
  have hx := h (BitVec.ofNat 4 k)
  simpa [State.getV, e] using hx

theorem State.getV_setFlag (s : State) (y : Nibble) (b : Bool) :
    (s.setFlag b).getV y = if y = vf then flagByte b else s.getV y := State.getV_setV s vf y (flagByte b)

/-! ### Memory -/

theorem Memory.readByte_consByte (a : Nat) (b : Byte) (rest : Memory) (a' : Nat)
    (h : ∀ c ∈ rest, a < c.1) :
    (Memory.consByte a b rest).readByte a' = if a' = a then b else rest.readByte a' := by
  have miss : rest.readByte a = Memory.unlisted a := by
    induction rest with
    | nil => rfl
    | cons c rest ih =>
      have hc := h c (by simp)
      have : c.1 ≠ a := by omega
      simp only [Memory.readByte, if_neg this]
      exact ih fun d hd => h d (by simp [hd])
  unfold Memory.consByte
  split
  · next e => by_cases ha : a' = a <;> simp [ha, miss, e]
  · simp only [Memory.readByte, eq_comm]

/-- R67: the byte written reads back, and no other byte changes. -/
theorem Memory.readByte_writeByte (m : Memory) (hm : m.Pairwise (fun p q => p.1 < q.1)) (a : Nat) (b : Byte)
    (a' : Nat) : (m.writeByte a b).readByte a' = if a' = a then b else m.readByte a' := by
  induction m with
  | nil => exact Memory.readByte_consByte a b [] a' (by simp)
  | cons c rest ih =>
    obtain ⟨hlt, hrest⟩ := List.pairwise_cons.mp hm
    obtain ⟨k, v⟩ := c
    simp only [Memory.writeByte]
    split
    · next hak =>
      apply Memory.readByte_consByte
      intro d hd
      rcases List.mem_cons.mp hd with rfl | hd
      · exact hak
      · exact Nat.lt_trans hak (hlt d hd)
    · split
      · next hak =>
        subst hak
        rw [Memory.readByte_consByte _ _ _ _ hlt]
        by_cases ha : a' = a
        · simp [ha]
        · simp [Memory.readByte, ha, Ne.symm ha]
      · next h1 h2 =>
        simp only [Memory.readByte, ih hrest]
        by_cases hk : k = a'
        · subst hk; simp [Ne.symm h2]
        · simp [hk]

theorem Memory.wf_consByte {a : Nat} {b : Byte} {rest : Memory} (hr : rest.wf) (ha : a < memSize)
    (h : ∀ c ∈ rest, a < c.1) : (Memory.consByte a b rest).wf := by
  unfold Memory.consByte
  split
  · exact hr
  · next hb =>
    refine ⟨List.pairwise_cons.mpr ⟨h, hr.1⟩, fun c hc => ?_⟩
    rcases List.mem_cons.mp hc with rfl | hc
    · exact ⟨ha, hb⟩
    · exact hr.2 c hc

theorem Memory.wf_tail {c : Host.Cell} {rest : Memory} (h : Memory.wf (c :: rest)) : Memory.wf rest :=
  ⟨(List.pairwise_cons.mp h.1).2, fun d hd => h.2 d (by simp [hd])⟩

/-- Every cell of a written memory was there before or is the written one. -/
theorem Memory.mem_writeByte {m : Memory} {a : Nat} {b : Byte} {c : Host.Cell} (h : c ∈ m.writeByte a b) :
    c ∈ m ∨ c = (a, b) := by
  have cons : ∀ rest : Memory, c ∈ Memory.consByte a b rest → c ∈ rest ∨ c = (a, b) := by
    intro rest hc
    unfold Memory.consByte at hc
    split at hc
    · exact .inl hc
    · exact (List.mem_cons.mp hc).symm
  induction m with
  | nil => exact cons [] h
  | cons d rest ih =>
    obtain ⟨k, v⟩ := d
    simp only [Memory.writeByte] at h
    split at h
    · exact cons _ h
    · split at h
      · exact (cons _ h).imp_left fun hc => List.mem_cons.mpr (.inr hc)
      · rcases List.mem_cons.mp h with rfl | h
        · exact .inl (by simp)
        · exact (ih h).imp_left fun hc => List.mem_cons.mpr (.inr hc)

/-- A write keeps the canonical form. -/
theorem Memory.wf_writeByte {m : Memory} (hm : m.wf) {a : Nat} (ha : a < memSize) (b : Byte) :
    (m.writeByte a b).wf := by
  induction m with
  | nil => exact Memory.wf_consByte hm ha (by simp)
  | cons c rest ih =>
    have hlt := (List.pairwise_cons.mp hm.1).1
    have hrest := Memory.wf_tail hm
    obtain ⟨k, v⟩ := c
    simp only [Memory.writeByte]
    split
    · next hak =>
      refine Memory.wf_consByte hm ha fun d hd => ?_
      rcases List.mem_cons.mp hd with rfl | hd
      · exact hak
      · exact Nat.lt_trans hak (hlt d hd)
    · split
      · next hak => subst hak; exact Memory.wf_consByte hrest ha hlt
      · next h1 h2 =>
        have hi := ih hrest
        refine ⟨List.pairwise_cons.mpr ⟨fun d hd => ?_, hi.1⟩, fun d hd => ?_⟩
        · rcases Memory.mem_writeByte hd with hd | rfl
          · exact hlt d hd
          · simp only; omega
        · rcases List.mem_cons.mp hd with rfl | hd
          · exact hm.2 _ (by simp)
          · exact hi.2 d hd

theorem Memory.wf_writeBytes {bytes : List Byte} {m : Memory} (hm : m.wf) {a : Nat}
    (ha : a + bytes.length ≤ memSize) : (m.writeBytes a bytes).wf := by
  induction bytes generalizing m a with
  | nil => exact hm
  | cons b bs ih =>
    simp only [List.length_cons] at ha
    exact ih (Memory.wf_writeByte hm (by omega) b) (by omega)

/-- What a byte reads as after a run of writes: the new byte inside the range, the old one outside. -/
theorem Memory.readByte_writeBytes {m : Memory} (hm : m.wf) (a : Nat) (bytes : List Byte)
    (ha : a + bytes.length ≤ memSize) (a' : Nat) :
    (m.writeBytes a bytes).readByte a' =
      if h : a ≤ a' ∧ a' < a + bytes.length then bytes[a' - a]'(by omega) else m.readByte a' := by
  induction bytes generalizing m a with
  | nil =>
    have : ¬(a ≤ a' ∧ a' < a + ([] : List Byte).length) := by simp only [List.length_nil]; omega
    simp only [this, dite_false, Memory.writeBytes]
  | cons b bs ih =>
    simp only [List.length_cons] at ha
    simp only [Memory.writeBytes, List.length_cons]
    rw [ih (Memory.wf_writeByte hm (by omega) b) (a + 1) (by omega), Memory.readByte_writeByte m hm.1]
    by_cases h1 : a' = a
    · subst h1; simp
    · by_cases h2 : a + 1 ≤ a' ∧ a' < a + 1 + bs.length
      · have h3 : a ≤ a' ∧ a' < a + (bs.length + 1) := by omega
        have h4 : a' - a = (a' - (a + 1)) + 1 := by omega
        simp [h2, h3, h4]
      · have h3 : ¬(a ≤ a' ∧ a' < a + (bs.length + 1)) := by omega
        rw [dif_neg h2, dif_neg h3, if_neg h1]

theorem Memory.length_readBytes (m : Memory) (a n : Nat) : (m.readBytes a n).length = n := by
  simp [Memory.readBytes]

theorem Memory.getElem_readBytes (m : Memory) (a n k : Nat) (h : k < (m.readBytes a n).length) :
    (m.readBytes a n)[k] = m.readByte (a + k) := by
  simp [Memory.readBytes]

/-- Canonical memories that read alike are equal data. -/
theorem Memory.wf_ext {m m' : Memory} (hm : m.wf) (hm' : m'.wf) (h : ∀ a, m.readByte a = m'.readByte a) : m = m' := by
  have miss : ∀ (r : Memory) (a : Nat), (∀ c ∈ r, a < c.1) → r.readByte a = Memory.unlisted a := by
    intro r a hr
    induction r with
    | nil => rfl
    | cons c r ih =>
      have hc := hr c (by simp)
      have : c.1 ≠ a := by omega
      simp only [Memory.readByte, if_neg this]
      exact ih fun d hd => hr d (by simp [hd])
  have head : ∀ (k : Nat) (b : Byte) (r : Memory), Memory.readByte ((k, b) :: r) k = b := by
    intro k b r; simp [Memory.readByte]
  induction m generalizing m' with
  | nil =>
    cases m' with
    | nil => rfl
    | cons c r' =>
      obtain ⟨k, b⟩ := c
      have := h k
      rw [head] at this
      exact absurd this.symm (hm'.2 (k, b) (by simp)).2
  | cons c r ih =>
    obtain ⟨k, b⟩ := c
    have hk : ∀ d ∈ r, k < d.1 := (List.pairwise_cons.mp hm.1).1
    cases m' with
    | nil =>
      have := h k
      rw [head] at this
      exact absurd this (hm.2 (k, b) (by simp)).2
    | cons c' r' =>
      obtain ⟨k', b'⟩ := c'
      have hk' : ∀ d ∈ r', k' < d.1 := (List.pairwise_cons.mp hm'.1).1
      have low : ∀ {j j' : Nat} {x x' : Byte} {q q' : Memory}, Memory.wf ((j, x) :: q) → (∀ d ∈ q', j' < d.1) →
          Memory.readByte ((j, x) :: q) j = Memory.readByte ((j', x') :: q') j → ¬ j < j' := by
        intro j j' x x' q q' hw hq' he hlt
        rw [head, miss ((j', x') :: q') j] at he
        · exact (hw.2 (j, x) (by simp)).2 he
        · intro d hd
          rcases List.mem_cons.mp hd with rfl | hd
          · exact hlt
          · exact Nat.lt_trans hlt (hq' d hd)
      have e : k = k' := by
        have h1 := low hm hk' (h k)
        have h2 := low hm' hk (h k').symm
        omega
      subst e
      have eb : b = b' := by have := h k; rwa [head, head] at this
      subst eb
      have : r = r' := by
        apply ih (Memory.wf_tail hm) (Memory.wf_tail hm')
        intro a
        by_cases ha : k = a
        · subst ha; rw [miss r k hk, miss r' k hk']
        · have := h a
          simpa [Memory.readByte, ha] using this
      rw [this]

/-! ### The range check -/

/-- R68: nothing offends exactly when the range is empty or ends inside memory. -/
theorem checkRange_eq_none (addr : Word) (n : Nat) :
    checkRange addr n = none ↔ n = 0 ∨ addr.toNat + n ≤ memSize := by
  unfold checkRange
  split
  · simp_all
  · split
    · simp_all
    · split <;> simp_all

/-- R68: what is reported is the lowest offending address: `addr` above 0xFFF, else 0x1000. -/
theorem checkRange_eq_some (addr : Word) (n : Nat) (bad : Word) :
    checkRange addr n = some bad ↔
      0 < n ∧ memSize < addr.toNat + n ∧ bad = if memSize ≤ addr.toNat then addr else 0x1000 := by
  unfold checkRange
  split
  · next h => simp [h]
  · next h =>
    split
    · next h2 => simp only [reduceCtorEq, false_iff]; omega
    · next h2 =>
      have h3 : 0 < n ∧ memSize < addr.toNat + n := by omega
      split <;> simp_all [memSize, eq_comm]

theorem State.memRead_ok (s : State) (addr : Word) (n : Nat) (h : n = 0 ∨ addr.toNat + n ≤ memSize) :
    s.memRead addr n = .ok (s.mem.readBytes addr.toNat n) := by
  simp [State.memRead, (checkRange_eq_none addr n).mpr h]

theorem State.memRead_error (s : State) (addr : Word) (n : Nat) (h0 : 0 < n) (h : memSize < addr.toNat + n) :
    s.memRead addr n = .error (if memSize ≤ addr.toNat then addr else 0x1000) := by
  have e := (checkRange_eq_some addr n _).mpr ⟨h0, h, rfl⟩
  rw [State.memRead, e]

theorem State.memWrite_ok (s : State) (addr : Word) (bytes : List Byte)
    (h : bytes.length = 0 ∨ addr.toNat + bytes.length ≤ memSize) :
    s.memWrite addr bytes = .ok { s with mem := s.mem.writeBytes addr.toNat bytes } := by
  simp [State.memWrite, (checkRange_eq_none addr bytes.length).mpr h]

theorem State.memWrite_error (s : State) (addr : Word) (bytes : List Byte) (h0 : 0 < bytes.length)
    (h : memSize < addr.toNat + bytes.length) :
    s.memWrite addr bytes = .error (if memSize ≤ addr.toNat then addr else 0x1000) := by
  have e := (checkRange_eq_some addr bytes.length _).mpr ⟨h0, h, rfl⟩
  rw [State.memWrite, e]

/-- A write answers either the offending address or the state with those bytes written and nothing else changed. -/
theorem State.memWrite_cases {s : State} {addr : Word} {bytes : List Byte} {s' : State}
    (h : s.memWrite addr bytes = .ok s') :
    (bytes.length = 0 ∨ addr.toNat + bytes.length ≤ memSize) ∧
      s' = { s with mem := s.mem.writeBytes addr.toNat bytes } := by
  unfold State.memWrite at h
  split at h
  · cases h
  · next e => exact ⟨(checkRange_eq_none _ _).mp e, by cases h; rfl⟩

/-! ### The stack -/

/-- R31: a push succeeds below 32 frames; it writes the next slot, and nothing else but the depth. -/
theorem State.push_some (s : State) (w : Word) (h : s.depth.val < 32) :
    s.push w = some { s with depth := ⟨s.depth.val + 1, by omega⟩, stk := s.stk.set s.depth.val w h } := by
  simp [State.push, h]

theorem State.push_none (s : State) (w : Word) (h : s.depth.val = 32) : s.push w = none := by
  simp [State.push, h]

/-- R32: a pop succeeds with a frame in use; it answers the newest slot, and changes the depth alone. -/
theorem State.pop_some (s : State) (h : 0 < s.depth.val) :
    s.pop = some (s.stk[s.depth.val - 1]'(by omega), { s with depth := ⟨s.depth.val - 1, by omega⟩ }) := by
  simp [State.pop, h]

theorem State.pop_none (s : State) (h : s.depth.val = 0) : s.pop = none := by
  simp [State.pop, h]

/-! ### Faults -/

/-- R126, R252: a handler fault is always a next state: the halted one, with `A = PC - 2` recorded. -/
theorem handlerFault_eq (s : State) (k : FaultKind) (info : Word) :
    handlerFault s k info = .next (s.raise k (s.pc - 2) info) := rfl

theorem FaultKind.code_ne_zero (k : FaultKind) : k.code ≠ 0 := by cases k <;> decide

theorem FaultKind.code_le_five (k : FaultKind) : k.code.toNat ≤ 5 := by cases k <;> decide

/-! ### Key numbers -/

theorem keyOf_some (b : Byte) (h : b.toNat ≤ 0xF) : keyOf b = some (b.setWidth 4) := by
  have : ¬ b.toNat > 0xF := by omega
  simp [keyOf, this]

theorem keyOf_none (b : Byte) (h : 0xF < b.toNat) : keyOf b = none := by
  simp [keyOf, h]

/-! ### Register ranges -/

theorem State.length_rangeV (s : State) (x : Nibble) : (s.rangeV x).length = x.toNat + 1 := by
  simp [State.rangeV, rangeCount]

theorem State.getElem_rangeV (s : State) (x : Nibble) (k : Nat) (h : k < (s.rangeV x).length) :
    (s.rangeV x)[k] = s.getV (BitVec.ofNat 4 k) := by
  simp [State.rangeV]

/-- Loading a run of bytes from register `k` up writes those registers and no other. -/
theorem State.getV_setRangeV (s : State) (k : Nat) (bytes : List Byte) (hk : k + bytes.length ≤ 16) (y : Nibble) :
    (s.setRangeV k bytes).getV y =
      if h : k ≤ y.toNat ∧ y.toNat < k + bytes.length then bytes[y.toNat - k]'(by omega) else s.getV y := by
  induction bytes generalizing s k with
  | nil =>
    have : ¬(k ≤ y.toNat ∧ y.toNat < k + ([] : List Byte).length) := by simp only [List.length_nil]; omega
    simp only [this, dite_false, State.setRangeV]
  | cons b bs ih =>
    simp only [List.length_cons] at hk
    simp only [State.setRangeV, List.length_cons]
    rw [ih _ (k + 1) (by omega), State.getV_setV]
    have e : (y = BitVec.ofNat 4 k) ↔ y.toNat = k := by
      constructor
      · rintro rfl; simp only [BitVec.toNat_ofNat]; omega
      · intro e; apply BitVec.eq_of_toNat_eq; simp only [BitVec.toNat_ofNat]; omega
    by_cases h1 : y.toNat = k
    · have h2 : ¬(k + 1 ≤ y.toNat ∧ y.toNat < k + 1 + bs.length) := by omega
      have h3 : k ≤ y.toNat ∧ y.toNat < k + (bs.length + 1) := by omega
      rw [dif_neg h2, if_pos (e.mpr h1), dif_pos h3]
      simp [h1]
    · by_cases h2 : k + 1 ≤ y.toNat ∧ y.toNat < k + 1 + bs.length
      · have h3 : k ≤ y.toNat ∧ y.toNat < k + (bs.length + 1) := by omega
        have h4 : y.toNat - k = (y.toNat - (k + 1)) + 1 := by omega
        simp [h2, h3, h4]
      · have h3 : ¬(k ≤ y.toNat ∧ y.toNat < k + (bs.length + 1)) := by omega
        rw [dif_neg h2, dif_neg h3, if_neg (fun h => h1 (e.mp h))]

/-- Loading registers changes the register file alone. -/
theorem State.setRangeV_eq (s : State) (k : Nat) (bytes : List Byte) :
    s.setRangeV k bytes = { s with v := (s.setRangeV k bytes).v } := by
  induction bytes generalizing s k with
  | nil => rfl
  | cons b bs ih =>
    have h := ih (s.setV (BitVec.ofNat 4 k) b) (k + 1)
    simp only [State.setRangeV]
    rw [h]
    rfl

/-! ### The display -/

/-- The single bit a pixel occupies in its row. -/
theorem getLsbD_pixel (c c' : Fin 64) : (1#64 <<< c.val).getLsbD c'.val = decide (c' = c) := by
  have hc : (c' = c) ↔ c'.val = c.val := Fin.ext_iff
  rw [BitVec.getLsbD_shiftLeft, BitVec.getLsbD_one]
  by_cases h : c' = c
  · subst h; simp
  · have h' : c'.val ≠ c.val := fun e => h (hc.mpr e)
    by_cases hlt : c'.val < c.val
    · simp [hlt, h]
    · have : c'.val - c.val ≠ 0 := by omega
      simp [this, h]

/-- R42: the pixel set takes the new value, no other changes. -/
theorem dispIsSet_dispSet (p : Plane) (c c' : Fin 64) (r r' : Fin 32) (on : Bool) :
    dispIsSet (dispSet p c r on) c' r' = if c' = c ∧ r' = r then on else dispIsSet p c' r' := by
  by_cases hr : r' = r
  · subst hr
    have self : ∀ w : BitVec 64, (p.set r' w)[r'] = w := fun w => by simp
    simp only [dispIsSet, dispSet, self, and_true]
    cases on
    · rw [if_neg Bool.false_ne_true, BitVec.getLsbD_and, BitVec.getLsbD_not, getLsbD_pixel]
      by_cases h : c' = c <;> simp [h]
    · rw [if_pos rfl, BitVec.getLsbD_or, getLsbD_pixel]
      by_cases h : c' = c <;> simp [h]
  · have hn : r.val ≠ r'.val := fun e => hr (Fin.ext e.symm)
    simp [dispIsSet, dispSet, hr, Vector.getElem_set_ne _ _ hn]

theorem dispIsSet_dispClear (c : Fin 64) (r : Fin 32) : dispIsSet dispClear c r = false := by
  simp [dispIsSet, dispClear]

/-- Planes that read alike are equal. -/
theorem plane_ext {p q : Plane} (h : ∀ c r, dispIsSet p c r = dispIsSet q c r) : p = q := by
  apply Vector.ext
  intro r hr
  apply BitVec.eq_of_getLsbD_eq
  intro c hc
  exact h ⟨c, hc⟩ ⟨r, hr⟩

end Sys2Proof.Machine
end

