-- ==== Sys2Proof/Laws/Display.lean ====
section
/-!
SUPPORT. What drawing a sprite does to each pixel and to the collision flag (rules R211 to R213), once for a pixel, a
row and the whole sprite.
-/

namespace Sys2Proof.Machine

/-- The sprite byte `b`, its bit 7 at column `xc`, has its bit at column `c` set. -/
def RowBit (xc : Nat) (b : Byte) (c : Fin 64) : Prop := xc ≤ c.val ∧ c.val < xc + 8 ∧ b.getLsbD (7 - (c.val - xc)) = true

theorem drawPixel_spec (xc : Nat) (row : Fin 32) (b : Byte) (acc : Plane × Bool) (k : Nat) :
    (∀ c r, dispIsSet (drawPixel xc row b acc k).1 c r =
      if r = row ∧ c.val = xc + k ∧ b.getLsbD (7 - k) = true then !dispIsSet acc.1 c r else dispIsSet acc.1 c r) ∧
    ((drawPixel xc row b acc k).2 = true ↔
      acc.2 = true ∨ ∃ c : Fin 64, c.val = xc + k ∧ b.getLsbD (7 - k) = true ∧ dispIsSet acc.1 c row = true) := by
  unfold drawPixel
  by_cases h : xc + k < 64
  · have hcol : ∀ c : Fin 64, c = ⟨xc + k, h⟩ ↔ c.val = xc + k := fun c => Fin.ext_iff
    have hex : ∀ P : Fin 64 → Prop, (∃ c : Fin 64, c.val = xc + k ∧ P c) ↔ P ⟨xc + k, h⟩ :=
      fun P => ⟨fun ⟨c, hc, hp⟩ => (hcol c).mpr hc ▸ hp, fun hp => ⟨_, rfl, hp⟩⟩
    simp only [h, dite_true, hex]
    cases hb : b.getLsbD (7 - k)
    · simp
    · cases hs : dispIsSet acc.1 ⟨xc + k, h⟩ row <;>
        simp only [Bool.false_eq_true, if_false, if_true, dispIsSet_dispSet, and_true, and_false, or_false, or_true]
      all_goals
        intro c r
        by_cases hc : c.val = xc + k
        · have := (hcol c).mpr hc
          subst this
          by_cases hr : r = row
          · subst hr; simp [hs]
          · simp [hr]
        · have : ¬ c = ⟨xc + k, h⟩ := fun e => hc ((hcol c).mp e)
          simp [hc, this]
  · have hno : ∀ c : Fin 64, ¬ c.val = xc + k := fun c => by omega
    simp [h, hno]

/-- A sprite row flips exactly its set bits that lie on the plane, and reports whether one of them was lit. -/
theorem drawRow_spec (xc : Nat) (row : Fin 32) (b : Byte) (acc : Plane × Bool) :
    (∀ c r, dispIsSet (drawRow xc row b acc).1 c r =
      (dispIsSet acc.1 c r ^^ (decide (r = row) && decide (xc ≤ c.val ∧ c.val < xc + 8) && b.getLsbD (7 - (c.val - xc))))) ∧
    ((drawRow xc row b acc).2 = true ↔
      acc.2 = true ∨ ∃ c : Fin 64, RowBit xc b c ∧ dispIsSet acc.1 c row = true) := by
  have gen : ∀ n, n ≤ 8 →
      (∀ c r, dispIsSet ((List.range n).foldl (drawPixel xc row b) acc).1 c r =
        if r = row ∧ xc ≤ c.val ∧ c.val < xc + n ∧ b.getLsbD (7 - (c.val - xc)) = true then !dispIsSet acc.1 c r
        else dispIsSet acc.1 c r) ∧
      (((List.range n).foldl (drawPixel xc row b) acc).2 = true ↔ acc.2 = true ∨ ∃ c : Fin 64,
        (xc ≤ c.val ∧ c.val < xc + n ∧ b.getLsbD (7 - (c.val - xc)) = true) ∧ dispIsSet acc.1 c row = true) := by
    intro n
    induction n with
    | zero =>
      intro _
      have hno : ∀ c : Fin 64, ¬(xc ≤ c.val ∧ c.val < xc + 0 ∧ b.getLsbD (7 - (c.val - xc)) = true) := fun c => by omega
      simp only [List.range_zero, List.foldl_nil, hno, and_false, if_false, false_and, exists_false, or_false, implies_true,
        and_self]
    | succ n ih =>
      intro hn
      obtain ⟨ihp, ihf⟩ := ih (by omega)
      rw [List.range_succ, List.foldl_append, List.foldl_cons, List.foldl_nil]
      generalize (List.range n).foldl (drawPixel xc row b) acc = mid at ihp ihf
      obtain ⟨hp, hf⟩ := drawPixel_spec xc row b mid n
      have at_n : ∀ c : Fin 64, c.val = xc + n → 7 - (c.val - xc) = 7 - n := fun c hc => by omega
      constructor
      · intro c r
        rw [hp, ihp]
        by_cases hc : c.val = xc + n
        · have h1 : ¬ c.val < xc + n := by omega
          have h2 : c.val < xc + (n + 1) := by omega
          have h3 : xc ≤ c.val := by omega
          simp [hc]
        · have h1 : (c.val < xc + (n + 1)) ↔ c.val < xc + n := by omega
          simp only [hc, h1, false_and, and_false, if_false]
      · rw [hf, ihf]
        constructor
        · rintro ((h | ⟨c, hc, hl⟩) | ⟨c, hc, hb, hl⟩)
          · exact .inl h
          · exact .inr ⟨c, ⟨hc.1, by omega, hc.2.2⟩, hl⟩
          · refine .inr ⟨c, ⟨by omega, by omega, by rwa [at_n c hc]⟩, ?_⟩
            rw [ihp] at hl
            have h1 : ¬ c.val < xc + n := by omega
            simpa [h1] using hl
        · rintro (h | ⟨c, hc, hl⟩)
          · exact .inl (.inl h)
          · by_cases hcn : c.val = xc + n
            · refine .inr ⟨c, hcn, by rw [← at_n c hcn]; exact hc.2.2, ?_⟩
              rw [ihp]
              have h1 : ¬ c.val < xc + n := by omega
              simpa [h1] using hl
            · exact .inl (.inr ⟨c, ⟨hc.1, by omega, hc.2.2⟩, hl⟩)
  obtain ⟨gp, gf⟩ := gen 8 (Nat.le_refl 8)
  refine ⟨fun c r => ?_, gf⟩
  rw [drawRow, gp]
  by_cases h2 : xc ≤ c.val ∧ c.val < xc + 8
  · by_cases h1 : r = row <;> cases b.getLsbD (7 - (c.val - xc)) <;> simp [h1, h2.1, h2.2]
  · have h3 : ¬(r = row ∧ xc ≤ c.val ∧ c.val < xc + 8 ∧ b.getLsbD (7 - (c.val - xc)) = true) :=
      fun h => h2 ⟨h.2.1, h.2.2.1⟩
    rw [if_neg h3, decide_eq_false h2]
    simp

/-- The whole sprite: pixel `(c, r)` flips exactly when the sprite byte of row `r` has its bit at column `c` set; the
flag is raised exactly when a pixel that flips was lit. -/
theorem drawRows_spec (xc : Nat) (bytes : List Byte) (row : Nat) (acc : Plane × Bool) :
    (∀ (c : Fin 64) (r : Fin 32), dispIsSet (drawRows xc row bytes acc).1 c r =
      (dispIsSet acc.1 c r ^^ (decide (row ≤ r.val ∧ r.val < row + bytes.length) &&
        decide (xc ≤ c.val ∧ c.val < xc + 8) && (bytes.getD (r.val - row) 0).getLsbD (7 - (c.val - xc))))) ∧
    ((drawRows xc row bytes acc).2 = true ↔ acc.2 = true ∨ ∃ (c : Fin 64) (r : Fin 32),
      row ≤ r.val ∧ r.val < row + bytes.length ∧ RowBit xc (bytes.getD (r.val - row) 0) c ∧
        dispIsSet acc.1 c r = true) := by
  induction bytes generalizing row acc with
  | nil =>
    have hno : ∀ r : Fin 32, ¬(row ≤ r.val ∧ r.val < row + ([] : List Byte).length) := by
      intro r; simp only [List.length_nil]; omega
    refine ⟨fun c r => ?_, ?_⟩
    · simp only [drawRows, hno, decide_false, Bool.false_and, Bool.xor_false]
    · refine ⟨fun h => .inl h, fun h => h.elim id ?_⟩
      rintro ⟨c, r, h1, h2, -⟩
      exact absurd ⟨h1, h2⟩ (hno r)
  | cons b bs ih =>
    simp only [drawRows]
    obtain ⟨ihp, ihf⟩ := ih (row + 1) (if h : row < 32 then drawRow xc ⟨row, h⟩ b acc else acc)
    have tail : ∀ r : Nat, row + 1 ≤ r → (b :: bs).getD (r - row) 0 = bs.getD (r - (row + 1)) 0 := by
      intro r hr
      have e : r - row = (r - (row + 1)) + 1 := by omega
      rw [e]; rfl
    by_cases hrow : row < 32
    · obtain ⟨rp, rf⟩ := drawRow_spec xc ⟨row, hrow⟩ b acc
      simp only [hrow, dite_true] at ihp ihf
      constructor
      · intro c r
        simp only [hrow, dite_true]
        rw [ihp, rp]
        by_cases hr : r.val = row
        · have e : r = ⟨row, hrow⟩ := Fin.ext hr
          have h1 : ¬(row + 1 ≤ r.val ∧ r.val < row + 1 + bs.length) := by omega
          have h2 : row ≤ r.val ∧ r.val < row + (b :: bs).length := by simp only [List.length_cons]; omega
          rw [decide_eq_false h1, decide_eq_true h2, decide_eq_true e]
          simp [hr]
        · have e : ¬ r = ⟨row, hrow⟩ := fun e => hr (congrArg Fin.val e)
          by_cases h1 : row + 1 ≤ r.val ∧ r.val < row + 1 + bs.length
          · have h2 : row ≤ r.val ∧ r.val < row + (b :: bs).length := by simp only [List.length_cons]; omega
            rw [decide_eq_true h1, decide_eq_true h2, decide_eq_false e, tail r.val h1.1]
            simp
          · have h2 : ¬(row ≤ r.val ∧ r.val < row + (b :: bs).length) := by simp only [List.length_cons]; omega
            rw [decide_eq_false h1, decide_eq_false h2, decide_eq_false e]
            simp
      · simp only [hrow, dite_true]
        rw [ihf, rf]
        constructor
        · rintro ((h | ⟨c, hb, hl⟩) | ⟨c, r, h1, h2, hb, hl⟩)
          · exact .inl h
          · exact .inr ⟨c, ⟨row, hrow⟩, Nat.le_refl _, by simp only [List.length_cons]; omega, by simpa using hb, hl⟩
          · refine .inr ⟨c, r, by omega, by simp only [List.length_cons]; omega, by rw [tail r.val h1]; exact hb, ?_⟩
            rw [rp] at hl
            have e : ¬ r = ⟨row, hrow⟩ := fun e => by have := congrArg Fin.val e; simp only at this; omega
            simpa [e] using hl
        · rintro (h | ⟨c, r, h1, h2, hb, hl⟩)
          · exact .inl (.inl h)
          · by_cases hr : r.val = row
            · have e : r = ⟨row, hrow⟩ := Fin.ext hr
              subst e
              exact .inl (.inr ⟨c, by simpa using hb, hl⟩)
            · simp only [List.length_cons] at h2
              have h3 : row + 1 ≤ r.val := by omega
              refine .inr ⟨c, r, h3, by omega, by rw [← tail r.val h3]; exact hb, ?_⟩
              rw [rp]
              have e : ¬ r = ⟨row, hrow⟩ := fun e => hr (congrArg Fin.val e)
              simpa [e] using hl
    · simp only [hrow, dite_false] at ihp ihf ⊢
      constructor
      · intro c r
        rw [ihp]
        have h1 : ¬(row + 1 ≤ r.val ∧ r.val < row + 1 + bs.length) := by omega
        have h2 : ¬(row ≤ r.val ∧ r.val < row + (b :: bs).length) := by omega
        rw [decide_eq_false h1, decide_eq_false h2]
        simp
      · rw [ihf]
        constructor
        · rintro (h | ⟨c, r, h1, -⟩)
          · exact .inl h
          · omega
        · rintro (h | ⟨c, r, h1, -⟩)
          · exact .inl h
          · omega

end Sys2Proof.Machine
end

