-- ==== Sys2Proof/Laws/Executor.lean ====
section
/-!
SUPPORT. What a step can do, said once: fetch answers by the place of `PC`, a step is the turn the schedule names, and
each tick and key delivery is a state with named fields replaced.
-/

namespace Sys2Proof.Machine

/-- R121: with both bytes in memory, fetch answers the word at `PC`, high half first. -/
theorem fetch_ok (s : State) (h : s.pc.toNat ≤ 0xFFE) :
    fetch s = .ok (s.mem.readByte s.pc.toNat ++ s.mem.readByte (s.pc.toNat + 1)) := by
  have e : checkRange s.pc 2 = none := (checkRange_eq_none _ _).mpr (.inr (by simp only [memSize]; omega))
  simp only [fetch, e, wordOfBytes]

/-- R121, R253: otherwise it answers the lowest offending address. -/
theorem fetch_error (s : State) (h : 0xFFE < s.pc.toNat) :
    fetch s = .error (if memSize ≤ s.pc.toNat then s.pc else 0x1000) := by
  have e := (checkRange_eq_some s.pc 2 _).mpr ⟨by omega, by simp only [memSize]; omega, rfl⟩
  rw [fetch, e]

/-- With a turn scheduled, a step is that turn on the rest of the schedule. -/
theorem step_cons (s : State) (a : Turn) (rest : List Turn) (h : s.schedule = a :: rest) :
    step s = takeTurn a { s with schedule := rest } := by
  simp only [step, machineStep, nextTurn, h]

/-- With no turn scheduled, a step is the Executor's turn. -/
theorem step_nil (s : State) (h : s.schedule = []) : step s = executorTurn s := by
  simp only [step, machineStep, nextTurn, h, takeTurn]

/-- R293, R296: a launch that is not rejected has a ROM that fits, and answers reset with the image placed. -/
theorem launch_ok {rom : List Byte} {t : State} (h : launch rom = .ok t) :
    rom.length ≤ 3584 ∧ t = { State.reset with mem := loadImage rom } := by
  unfold launch at h
  split at h
  · cases h
  · next hl =>
    have e : config.romMax = 3584 := rfl
    exact ⟨by omega, by cases h; rfl⟩

/-- R299: the image of a ROM that fits is canonical. -/
theorem wf_loadImage {rom : List Byte} (h : rom.length ≤ 3584) : (loadImage rom).wf := by
  apply Memory.wf_writeBytes ⟨List.Pairwise.nil, fun c hc => absurd hc (List.not_mem_nil)⟩
  have e : config.progBase.toNat = 512 := rfl
  simp only [memSize]
  omega

/-- R290, R292: a reset that is not rejected is a launch, with the model's own fields going on. -/
theorem resetTurn_next {rom : List Byte} {s t : State} (h : resetTurn rom s = .next t) : rom.length ≤ 3584 ∧
    t = { State.reset with
      mem := loadImage rom
      schedule := s.schedule
      draws := s.draws
      outputs := s.outputs } := by
  unfold resetTurn at h
  split at h
  · cases h
  · next l hl =>
    obtain ⟨hr, rfl⟩ := launch_ok hl
    cases h
    exact ⟨hr, rfl⟩

/-- R263: the delay tick replaces `DT` alone, by one less, clamped at 0. -/
theorem delayTick_eq (s : State) : delayTick s = { s with dt := BitVec.ofNat 8 (s.dt.toNat - 1) } := by
  unfold delayTick
  split
  · next h => simp only [h]; cases s; simp_all
  · next h =>
    have hn : s.dt.toNat ≠ 0 := fun e => h (BitVec.eq_of_toNat_eq (by simpa using e))
    have e : s.dt - 1 = BitVec.ofNat 8 (s.dt.toNat - 1) := by
      apply BitVec.eq_of_toNat_eq
      have := s.dt.isLt
      have e1 : (1 : Byte).toNat = 1 := rfl
      simp only [BitVec.toNat_sub, BitVec.toNat_ofNat, e1]
      omega
    rw [e]
    rfl

/-- R264: the sound tick replaces `ST` and the outputs alone. -/
theorem soundTick_eq (s : State) : soundTick s = { s with
    st := (soundTick s).st
    outputs := (soundTick s).outputs } := by
  unfold soundTick
  by_cases h : s.st = 0
  · simp only [h, if_true, State.emit]
  · rw [if_neg h]
    dsimp only
    split <;> rfl

/-- R234: while waiting, a key event writes the register waited for and lets the Executor run. -/
theorem deliverKey_waiting (k : Nibble) (s : State) (h : s.run = .waitKey) :
    deliverKey k s = { s.setV s.waitReg (zextKey k) with run := .running } := by
  simp only [deliverKey, h]

/-- R44: at any other time it is dropped. -/
theorem deliverKey_dropped (k : Nibble) (s : State) (h : s.run ≠ .waitKey) : deliverKey k s = s := by
  unfold deliverKey
  split
  · exact absurd ‹_› h
  · rfl
  · rfl

end Sys2Proof.Machine
end

