-- ==== Sys2Proof/Tests/Slice0.lean ====
section
/-!
SUPPORT. Tests and witnesses. Every expected value is from 95_test_vectors.md or from a rule's worked example. A test
is one step, or one instruction, on a small state; a witness meets the hypotheses of the obligation it is named after.
-/

namespace Sys2Proof.Tests

open Sys2Proof.Machine Sys2Proof.Claims

/-- The reset state with some general registers set. -/
def regs (l : List (Nibble × Byte)) : State := l.foldl (fun s p => s.setV p.1 p.2) State.reset

/-- The same with `I` set and bytes placed at `I`. -/
def regsMem (l : List (Nibble × Byte)) (i : Word) (bytes : List Byte) : State :=
  { regs l with i := i, mem := Memory.writeBytes [] i.toNat bytes }

/-- The next state of a step; the state itself where there is none. -/
def stepped (s : State) : State :=
  match step s with
  | .next t => t
  | .fault _ => s
  | .refused _ => s

/-- The state after one step that fetches and runs the word `w` at `PC` (0x200 in a state made from reset). -/
def after (s : State) (w : Nat) : State := stepped (s.withFetchWord 16 w)

/-- The reset state with `n` frames in use, every slot 0x0111. -/
def frames (n : Fin 33) : State := { State.reset with depth := n, stk := Vector.replicate 32 0x0111 }

/-- The fault registers with `RUN` and `PC`. -/
def faultOf (s : State) : RunState × BitVec 3 × Word × Word × Word :=
  (s.run, s.faultCause, s.faultPc, s.faultInfo, s.pc)

/-- The lit pixels of a plane as (column, row), row by row. -/
def lit (p : Plane) : List (Nat × Nat) :=
  (List.finRange 32).flatMap fun r =>
    if p[r] = 0 then [] else ((List.finRange 64).filter fun c => dispIsSet p c r).map fun c => (c.val, r.val)

/-- A plane with the pixels listed on. -/
def planeOf (l : List (Fin 64 × Fin 32)) : Plane := l.foldl (fun p c => dispSet p c.1 c.2 true) dispClear

/-! ### WellFormed: the one check refuses matched words as unmatched ones -/

theorem test_wellFormed_refuses_matched_words :
    [0x00E0, 0x00EE, 0x1200, 0x2012, 0x5AB0, 0x8AB6, 0x8ABE, 0x9AB0, 0xD12F, 0xE39E, 0xE3A1, 0xF565].all
      (fun w => !WellFormed (.nopUnmatched w)) = true := by decide

theorem test_wellFormed_accepts_unmatched_words :
    [0x0000, 0x00E1, 0x01E0, 0x0FEE, 0x5AB1, 0x8128, 0x812F, 0x9AB5, 0xE000, 0xE19F, 0xF000, 0xF1FF].all
      (fun w => WellFormed (.nopUnmatched w)) = true := by decide

/-! ### Decoding: words written out digit by digit from R96 -/

theorem test_decode_family_0 : decode [0x00, 0xE0] = .ok (.cls, []) ∧ decode [0x00, 0xEE] = .ok (.ret, []) := by decide

theorem test_decode_control : decode [0x12, 0x00] = .ok (.jp 0x200, []) ∧ decode [0x20, 0x12] = .ok (.call 0x012, []) ∧
    decode [0x33, 0x2A] = .ok (.seImm 3 0x2A, []) ∧ decode [0x43, 0x2A] = .ok (.sneImm 3 0x2A, []) ∧
    decode [0x51, 0x20] = .ok (.seReg 1 2, []) ∧ decode [0x91, 0x20] = .ok (.sneReg 1 2, []) ∧
    decode [0xB3, 0x00] = .ok (.jpV0 0x300, []) := by decide

theorem test_decode_loads : decode [0x6A, 0x7F] = .ok (.ldImm 0xA 0x7F, []) ∧
    decode [0x72, 0x02] = .ok (.addImm 2 0x02, []) ∧ decode [0xC3, 0x0F] = .ok (.rnd 3 0x0F, []) := by decide

theorem test_decode_family_8 : decode [0x83, 0x40] = .ok (.ldReg 3 4, []) ∧ decode [0x81, 0x21] = .ok (.or 1 2, []) ∧
    decode [0x81, 0x22] = .ok (.and 1 2, []) ∧ decode [0x81, 0x23] = .ok (.xor 1 2, []) ∧
    decode [0x81, 0x24] = .ok (.addReg 1 2, []) ∧ decode [0x81, 0x25] = .ok (.sub 1 2, []) ∧
    decode [0x83, 0x56] = .ok (.shr 3 5, []) ∧ decode [0x81, 0x27] = .ok (.subn 1 2, []) ∧
    decode [0x8A, 0xBE] = .ok (.shl 0xA 0xB, []) := by decide

theorem test_decode_index : decode [0xA2, 0xF0] = .ok (.ldIndex 0x2F0, []) ∧
    decode [0xF2, 0x1E] = .ok (.addIndex 2, []) ∧ decode [0xF4, 0x29] = .ok (.ldFont 4, []) ∧
    decode [0xF1, 0x33] = .ok (.bcd 1, []) ∧ decode [0xF2, 0x55] = .ok (.storeRegs 2, []) ∧
    decode [0xF5, 0x65] = .ok (.loadRegs 5, []) := by decide

theorem test_decode_display_keypad_timers : decode [0xD1, 0x2F] = .ok (.drw 1 2 0xF, []) ∧
    decode [0xE3, 0x9E] = .ok (.skp 3, []) ∧ decode [0xE5, 0xA1] = .ok (.sknp 5, []) ∧
    decode [0xF4, 0x07] = .ok (.ldVxDt 4, []) ∧ decode [0xF3, 0x0A] = .ok (.ldVxKey 3, []) ∧
    decode [0xF1, 0x15] = .ok (.ldDtVx 1, []) ∧ decode [0xF1, 0x18] = .ok (.ldStVx 1, []) := by decide

/-- The unmatched words of 95_test_vectors.md 2.1. -/
theorem test_decode_unmatched :
    ([0x0000, 0x00E1, 0x00EF, 0x00FE, 0x0123, 0x0FFF, 0x01E0, 0x0FEE, 0x5AB1, 0x500F, 0x9AB5, 0x8128, 0x8129] ++
      [0x812A, 0x812B, 0x812C, 0x812D, 0x812F, 0xE19F, 0xE1A0, 0xE000, 0xE1FF, 0xF000, 0xF108, 0xF11F, 0xF130] ++
      [0xF175, 0xF185, 0xF1FF]).all (fun w => decodeWord w == Instr.nopUnmatched w) = true := by decide

/-- A byte after the instruction is left over, and fewer than two bytes are refused by name. -/
theorem test_decode_length : decode [0x12, 0x00, 0x77] = .ok (.jp 0x200, [0x77]) ∧
    decode [0x12] = .error .truncated ∧ decode [] = .error .truncated := by decide

/-! ### Fetch, the schedule and reset -/

/-- R49, R30: `SP = -1` at reset is the 6-bit field 111111. -/
theorem test_reset_stack_pointer : State.reset.sp = -1 ∧ State.reset.spBits = 0x3F ∧ State.reset.pc = 0x200 := by decide

/-- 2.2: any word at `PC = 0xFFF`, and 0x10FE after `0xBFFF`. -/
theorem test_fetch_faults :
    faultOf (after { State.reset with pc := 0xFFF } 0x6000) = (.halted, 1, 0x0FFF, 0x1000, 0x0FFF) ∧
    faultOf (after { State.reset with pc := 0x10FE } 0x6000) = (.halted, 1, 0x10FE, 0x10FE, 0x10FE) := by decide

/-- 2.2: the fetch at 0xFFE is legal. -/
theorem test_fetch_last_word : (after { State.reset with pc := 0xFFE } 0x6000).pc = 0x1000 := by decide

/-- P7, first step: empty memory at 0x200 holds 0x0000, an unmatched word. -/
theorem test_first_step_from_reset : let t := stepped State.reset
    t.pc = 0x202 ∧ t.outputs = [.warn 0x0000] := by decide

/-- R298, R299: the glyph 7 of P8 lies in reset memory, and the fill around the font. -/
theorem test_reset_memory : State.reset.mem.readBytes 0x73 5 = [0xF0, 0x10, 0x20, 0x40, 0x40] ∧
    State.reset.mem.readByte 0x4F = 0 ∧ State.reset.mem.readByte 0xA0 = 0 := by decide

/-- R274, R296: a ROM of 3585 bytes is rejected. -/
theorem test_launch_rejects_large_rom : launch (List.replicate 3585 0) = .error .romTooLarge := by
  rw [launch, List.length_replicate]
  rfl

/-- R297: the two bytes of P5's ROM lie at 0x200. -/
theorem test_launch_places_rom : launch [0x22, 0x00] =
    .ok { State.reset with mem := [(0x200, 0x22)] } := by rfl

/-! ### Control transfer (2.2) -/

theorem test_ret : let t := after { frames 1 with pc := 0x300, stk := (frames 1).stk.set 0 0x0202 } 0x00EE
    t.pc = 0x202 ∧ t.sp = -1 := by decide
theorem test_ret_underflow : faultOf (after State.reset 0x00EE) = (.halted, 4, 0x200, 0, 0x202) := by decide

theorem test_jp : (after State.reset 0x1234).pc = 0x234 := by decide
theorem test_jp_highest : (after State.reset 0x1FFF).pc = 0xFFF := by decide

theorem test_call_last_frame : let t := after (frames 31) 0x2ABC
    t.pc = 0xABC ∧ t.sp = 31 ∧ t.stk[31] = 0x202 ∧ t.stk[30] = 0x111 := by decide
theorem test_call_overflow : let t := after (frames 32) 0x2ABC
    faultOf t = (.halted, 3, 0x200, 0, 0x202) ∧ t.sp = 31 ∧ t.stk = (frames 32).stk := by decide

theorem test_se_imm : (after (regs [(3, 0x2A)]) 0x332A).pc = 0x204 := by decide
theorem test_se_imm_other : (after (regs [(3, 0x2B)]) 0x332A).pc = 0x202 := by decide
theorem test_sne_imm : (after (regs [(3, 0x00)]) 0x432A).pc = 0x204 := by decide
theorem test_sne_imm_equal : (after (regs [(3, 0x2A)]) 0x432A).pc = 0x202 := by decide
theorem test_se_reg : (after (regs [(1, 7), (2, 7)]) 0x5120).pc = 0x204 := by decide
theorem test_se_reg_other : (after (regs [(1, 7), (2, 8)]) 0x5120).pc = 0x202 := by decide
theorem test_sne_reg : (after (regs [(1, 7), (2, 8)]) 0x9120).pc = 0x204 := by decide
theorem test_sne_reg_equal : (after (regs [(1, 7), (2, 7)]) 0x9120).pc = 0x202 := by decide

theorem test_jp_v0 : (after (regs [(0, 0x04), (3, 0x55)]) 0xB300).pc = 0x304 := by decide
theorem test_jp_v0_unmasked : (after (regs [(0, 0xFF)]) 0xBFFF).pc = 0x10FE := by decide

/-- 2.2: `0x5121` is unmatched and does not skip. -/
theorem test_nop_unmatched : let t := after (regs [(1, 7), (2, 7)]) 0x5121
    t.pc = 0x202 ∧ t.outputs = [.warn 0x5121] ∧ t.run = .running := by decide

/-! ### Registers and arithmetic (2.3) -/

theorem test_ld_imm : (after (regs [(0xA, 0x11)]) 0x6A7F).getV 0xA = 0x7F := by decide
theorem test_add_imm_no_flag : let t := after (regs [(2, 0xFF)]) 0x7202
    t.getV 2 = 0x01 ∧ t.getV 15 = 0 := by decide
theorem test_add_imm_vf : (after (regs [(15, 0x01)]) 0x7FFF).getV 15 = 0x00 := by decide
theorem test_ld_reg : (after (regs [(4, 0x12)]) 0x8340).getV 3 = 0x12 := by decide
theorem test_or_keeps_vf : let t := after (regs [(1, 0xF0), (2, 0x0F), (15, 1)]) 0x8121
    t.getV 1 = 0xFF ∧ t.getV 15 = 1 := by decide
theorem test_or_into_vf : (after (regs [(2, 0x80), (15, 1)]) 0x8F21).getV 15 = 0x81 := by decide
theorem test_and : (after (regs [(1, 0xF0), (2, 0x3C), (15, 1)]) 0x8122).getV 1 = 0x30 := by decide
theorem test_xor : (after (regs [(1, 0xF0), (2, 0x3C), (15, 1)]) 0x8123).getV 1 = 0xCC := by decide
theorem test_add_reg_carry : let t := after (regs [(1, 0xFF), (2, 0x01)]) 0x8124
    t.getV 1 = 0x00 ∧ t.getV 15 = 1 := by decide
theorem test_add_reg_y15 : let t := after (regs [(1, 0xFE), (15, 0x03)]) 0x81F4
    t.getV 1 = 0x01 ∧ t.getV 15 = 1 := by decide
theorem test_sub_borrow : let t := after (regs [(1, 0x01), (2, 0x02), (15, 1)]) 0x8125
    t.getV 1 = 0xFF ∧ t.getV 15 = 0 := by decide
theorem test_sub_y15 : let t := after (regs [(1, 0x05), (15, 0x03)]) 0x81F5
    t.getV 1 = 0x04 ∧ t.getV 15 = 1 := by decide
theorem test_shr_ignores_y : let t := after (regs [(3, 0xFE), (5, 0x01), (15, 1)]) 0x8356
    t.getV 3 = 0x7F ∧ t.getV 15 = 0 ∧ t.getV 5 = 1 := by decide
theorem test_shr_vf : (after (regs [(15, 0xFF)]) 0x8F06).getV 15 = 0 := by decide
theorem test_subn : let t := after (regs [(1, 0x02), (2, 0x05)]) 0x8127
    t.getV 1 = 0xFD ∧ t.getV 15 = 1 := by decide
theorem test_subn_vf : (after (regs [(2, 0x04), (15, 0x02)]) 0x8F27).getV 15 = 0xFD := by decide
theorem test_shl_copies_y : let t := after (regs [(1, 0x33), (2, 0x81)]) 0x812E
    t.getV 1 = 0x02 ∧ t.getV 15 = 1 ∧ t.getV 2 = 0x81 := by decide
theorem test_shl_vf : (after (regs [(2, 0x81), (15, 0x55)]) 0x8F2E).getV 15 = 0x02 := by decide

/-- 2.3: mask 0x00 gives 0 for any draw. -/
theorem test_rnd_zero_mask : (after (regs [(3, 0xAA)]) 0xC300).getV 3 = 0 := by
  change Config.randByte 0 &&& 0#8 = 0
  simp
/-- 2.3: mask 0xFF gives the draw itself. -/
theorem test_rnd_full_mask : (after (regs [(3, 0xAA)]) 0xC3FF).getV 3 = Config.randByte 0 := by
  change Config.randByte 0 &&& 255#8 = Config.randByte 0
  exact BitVec.and_allOnes

/-! ### Index register and memory (2.4) -/

theorem test_ld_index : (after { State.reset with i := 0xFFFF } 0xA2F0).i = 0x2F0 := by decide
theorem test_add_index_no_flag : let t := after { regs [(2, 1)] with i := 0xFFF } 0xF21E
    t.i = 0x1000 ∧ t.getV 15 = 0 := by decide
theorem test_add_index_wraps : (after { regs [(2, 1)] with i := 0xFFFF } 0xF21E).i = 0 := by decide
theorem test_ld_font_high_nibble : (after (regs [(4, 0x1A)]) 0xF429).i = 0x82 := by decide
theorem test_ld_font_last : (after (regs [(4, 0xFF)]) 0xF429).i = 0x9B := by decide
theorem test_bcd_highest_base : (after { regs [(0, 0xFF)] with i := 0xFFD } 0xF033).mem.readBytes 0xFFD 3 = [2, 5, 5] := by
  decide
theorem test_bcd_out_of_range : let t := after { regs [(0, 0xFF)] with i := 0xFFE } 0xF033
    faultOf t = (.halted, 2, 0x200, 0x1000, 0x202) ∧ t.mem.readByte 0xFFE = 0 := by decide
theorem test_store_regs : let t := after { regs [(0, 0x11), (1, 0x22), (2, 0x33)] with i := 0x400 } 0xF255
    t.mem.readBytes 0x3FF 5 = [0, 0x11, 0x22, 0x33, 0] ∧ t.i = 0x403 := by decide
theorem test_store_regs_out_of_range : let t := after { regs [(15, 0xAF)] with i := 0xFF1 } 0xFF55
    t.faultInfo = 0x1000 ∧ t.i = 0xFF1 ∧ t.mem.readByte 0xFFF = 0 := by decide
theorem test_load_regs_font : let t := after { State.reset with i := 0x50 } 0xFF65
    (List.range 16).map (fun k => t.getV (BitVec.ofNat 4 k)) =
      [0xF0, 0x90, 0x90, 0x90, 0xF0, 0x20, 0x60, 0x20] ++ [0x20, 0x70, 0xF0, 0x10, 0xF0, 0x80, 0xF0, 0xF0] ∧
    t.i = 0x60 := by decide
theorem test_load_regs_partial : let t := after (regsMem [(2, 0x5C)] 0x400 [0xAA, 0xBB]) 0xF165
    (t.getV 0, t.getV 1, t.getV 2, t.i) = (0xAA, 0xBB, 0x5C, 0x402) := by decide

/-! ### Display (2.5) -/

theorem test_cls_leaves_vf : let t := after { regs [(15, 1)] with plane := planeOf [(3, 4), (63, 31)] } 0x00E0
    lit t.plane = [] ∧ t.getV 15 = 1 := by decide
theorem test_drw_two_collisions :
    let t := after { regsMem [] 0x300 [0xF0] with plane := planeOf [(0, 0), (1, 0), (5, 5)] } 0xD121
    lit t.plane = [(2, 0), (3, 0), (5, 5)] ∧ t.getV 15 = 1 := by decide
theorem test_drw_clipped_rows_unread : let t := after (regsMem [(2, 30)] 0xFFE [0x80, 0x40]) 0xD12F
    lit t.plane = [(0, 30), (1, 31)] ∧ t.run = .running := by decide

/-! ### Keypad and timers (2.6) -/

/-- The skip follows the answer to the poll of key 0xA. -/
theorem test_skp_polls : execSkp 5 (regs [(5, 0x0A)]) =
    .next ((regs [(5, 0x0A)]).draw.skipIf (Config.keyDown 0 0xA)) := rfl
theorem test_skp_key_range : faultOf (after (regs [(1, 0x10)]) 0xE19E) = (.halted, 5, 0x200, 0x10, 0x202) := by decide
theorem test_sknp_polls : execSknp 5 (regs [(5, 0x0A)]) =
    .next ((regs [(5, 0x0A)]).draw.skipIf (!Config.keyDown 0 0xA)) := rfl
theorem test_sknp_key_range : (after (regs [(1, 0xFF)]) 0xE1A1).faultInfo = 0xFF := by decide
theorem test_ld_vx_dt : (after { State.reset with dt := 0x2C } 0xF407).getV 4 = 0x2C := by decide
theorem test_ld_vx_key : let t := after (regs [(3, 0x99)]) 0xF30A
    (t.run, t.waitReg, t.pc, t.getV 3) = (.waitKey, 3, 0x202, 0x99) := by decide
theorem test_key_delivery : let t := deliverKey 0xC { State.reset with run := .waitKey, waitReg := 3 }
    (t.run, t.getV 3) = (.running, 0x0C) := by decide
theorem test_ld_dt_vx : (after (regs [(1, 10)]) 0xF115).dt = 10 := by decide
theorem test_ld_st_vx : let t := after (regs [(1, 5)]) 0xF118
    t.st = 5 ∧ t.outputs = [] := by decide
theorem test_delay_tick_clamped : (delayTick State.reset).dt = 0 := by decide
/-- P4: `ST = 1` gives `play`, then `stop`. -/
theorem test_sound_tick_last : (soundTick { State.reset with st := 1 }).outputs = [.audioStop, .audioPlay] := by decide

/-! ### Witnesses: hypotheses of the obligations, met together, at the ends of their ranges -/

theorem witness_DecodeOfEncodeIsIdentity :
    WellFormed (.drw 1 2 15) = true ∧ WellFormed (.nopUnmatched 0x5AB1) = true := by decide

theorem witness_DecoderFollowsOpcodeMap : ∃ row ∈ opcodeMap, row.fits 0x8ABE = true := by decide

theorem witness_StepRunsDecodedInstruction : ∃ s : State, s.run = .running ∧ s.pc.toNat ≤ 0xFFE ∧ s.pc = 0xFFE :=
  ⟨{ State.reset with pc := 0xFFE }, by decide⟩

theorem witness_FetchOutOfRangeHalts : ∃ s t : State, (s.run = .running ∧ 0xFFE < s.pc.toNat ∧ s.pc = 0xFFF) ∧
    t.run = .running ∧ 0xFFE < t.pc.toNat ∧ t.pc = 0x1000 :=
  ⟨{ State.reset with pc := 0xFFF }, { State.reset with pc := 0x1000 }, by decide⟩

theorem witness_ExecutorDoesNotStepUnlessRunning : ∃ s t : State, s.run = .waitKey ∧ t.run = .halted :=
  ⟨{ State.reset with run := .waitKey }, { State.reset with run := .halted }, by decide⟩

/-- Each of the two stops of a step. -/
theorem witness_OnlyHaltOrRejectedRomStops :
    (∃ s : State, s.run = .halted ∧ s.schedule = [] ∧ step s = .fault (.halted s.faultCause)) ∧
    ∃ (s : State) (rom : List Byte), s.schedule.head? = some (.reset rom) ∧ rom.length = 3585 ∧
      step s = .fault .romTooLarge :=
  ⟨⟨{ State.reset with run := .halted, faultCause := 1 }, rfl, rfl, rfl⟩,
    { State.reset with schedule := [.reset (List.replicate 3585 0)] }, List.replicate 3585 0, rfl,
    List.length_replicate, by
      simp only [step, machineStep, nextTurn, takeTurn, resetTurn, test_launch_rejects_large_rom]⟩

theorem witness_UnmatchedWordWarnsAndContinues : ∃ (s : State) (w : Word), s.run = .running ∧ s.pc.toNat ≤ 0xFFE ∧
    s.mem.readByte s.pc.toNat ++ s.mem.readByte (s.pc.toNat + 1) = w ∧ unmatchedWord w = true :=
  ⟨State.reset.withFetchWord 16 0x5AB1, 0x5AB1, by decide⟩

theorem witness_JumpToSelfChangesNothing : ∃ (s : State) (nnn : Addr12), s.run = .running ∧ s.schedule = [] ∧
    s.pc = nnn.setWidth 16 ∧ s.pc.toNat ≤ 0xFFE ∧
    s.mem.readByte s.pc.toNat ++ s.mem.readByte (s.pc.toNat + 1) = encodeWord (.jp nnn) :=
  ⟨{ State.reset with mem := [(0x200, 0x12)] }, 0x200, by decide⟩

theorem witness_CallPushesReturnAddress : (frames 31).sp < 31 ∧ (frames 31).sp = 30 ∧ (frames 32).sp = 31 := by decide

theorem witness_ReturnPopsIntoPc : 0 ≤ (frames 1).sp ∧ (frames 1).sp = 0 ∧ (frames 0).sp = -1 := by decide

theorem witness_CallThenReturnRoundTrip : ∃ s t u : State, s.sp < 31 ∧ exec (.call 0x300) s = .next t ∧
    u.depth = t.depth ∧ u.stk = t.stk ∧ u.i ≠ t.i :=
  let called : State := { frames 32 with pc := 0x300, stk := (frames 31).stk.set 31 0x200 }
  ⟨frames 31, called, { called with pc := 0x400, i := 7 }, by decide, rfl, rfl, rfl, by decide⟩

theorem witness_StackIsLastInFirstOut : ∃ (s : State) (ws : List Word), s.depth.val + ws.length ≤ 32 ∧
    s.depth.val + ws.length = 32 ∧ ws ≠ [] :=
  ⟨frames 30, [1, 2], by decide⟩

/-- Each of the four cases of `X`, `Y` being 15 or not, of ADD_REG, SUB, SHR, SUBN and SHL. -/
theorem witness_flag_writer_cases : ∃ x y : Nibble, (x ≠ 15 ∧ y ≠ 15) ∧ ∃ x' y' : Nibble, (x' ≠ 15 ∧ y' = 15) ∧
    ∃ x'' y'' : Nibble, (x'' = 15 ∧ y'' ≠ 15) ∧ ∃ r : Nibble, r ≠ x'' ∧ r ≠ 15 :=
  ⟨14, 14, by decide, 14, 15, by decide, 15, 14, by decide, 0, by decide⟩

theorem witness_BcdStoresDecimalDigits : ∃ s t : State, (MemoryCanonical s ∧ s.i.toNat + 2 ≤ 0xFFF ∧ s.i = 0xFFD) ∧
    MemoryCanonical t ∧ 0xFFF < t.i.toNat + 2 ∧ t.i = 0xFFE :=
  ⟨{ State.reset with i := 0xFFD }, { State.reset with i := 0xFFE }, by decide⟩

/-- For STORE_REGS and LOAD_REGS with `X = 15`: the highest base inside memory and the lowest outside. -/
theorem witness_StoreRegistersAtIndex : ∃ s t : State,
    (MemoryCanonical s ∧ s.i.toNat + (15 : Nibble).toNat ≤ 0xFFF ∧ s.i = 0xFF0) ∧
    MemoryCanonical t ∧ 0xFFF < t.i.toNat + (15 : Nibble).toNat ∧ t.i = 0xFF1 :=
  ⟨{ State.reset with i := 0xFF0 }, { State.reset with i := 0xFF1 }, by decide⟩

theorem witness_LoadRegistersFromIndex : ∃ s t : State, (s.i.toNat + (0 : Nibble).toNat ≤ 0xFFF ∧ s.i = 0xFFF) ∧
    0xFFF < t.i.toNat + (0 : Nibble).toNat ∧ t.i = 0x1000 :=
  ⟨{ State.reset with i := 0xFFF }, { State.reset with i := 0x1000 }, by decide⟩

theorem witness_StoreThenLoadRestoresRegisters : ∃ s t : State, MemoryCanonical s ∧
    s.i.toNat + (2 : Nibble).toNat ≤ 0xFFF ∧ exec (.storeRegs 2) s = .next t :=
  ⟨{ regs [(0, 0x11), (2, 0x33)] with i := 0x400 }, _, by decide, by decide, rfl⟩

theorem witness_WrittenByteReadsBack : ∃ (s : State) (a b : Word), MemoryCanonical s ∧
    (a.toNat ≤ 0xFFF ∧ a = 0xFFF) ∧ 0xFFF < b.toNat ∧ b = 0x1000 :=
  ⟨State.reset, 0xFFF, 0x1000, by decide⟩

theorem witness_StoreIsSeenByNextFetch : ∃ s t : State, MemoryCanonical s ∧ s.i = s.pc ∧ 1 ≤ (1 : Nibble).toNat ∧
    s.pc.toNat + (1 : Nibble).toNat ≤ 0xFFF ∧ exec (.storeRegs 1) s = .next t :=
  ⟨{ regs [(0, 0x62), (1, 0x77)] with i := 0x20A, pc := 0x20A }, _, by decide, rfl, by decide, by decide, rfl⟩

/-- A sprite whose last surviving row is the last byte of memory, and one byte further. -/
theorem witness_DrawIsExclusiveOr : ∃ s t : State, SpriteInRange s 2 15 ∧ s.i = 0xFFE ∧ ¬SpriteInRange t 2 15 ∧
    t.i = 0xFFF :=
  ⟨{ regs [(2, 30)] with i := 0xFFE }, { regs [(2, 30)] with i := 0xFFF },
    Or.inr (by decide), rfl, fun h => absurd h (by decide : ¬((2 : Nat) = 0 ∨ 0xFFF + 2 ≤ 4096)), rfl⟩

theorem witness_DrawTwiceRestoresPlane : ∃ s t : State, SpriteInRange s 2 1 ∧ exec (.drw 1 2 1) s = .next t ∧
    ∀ c r, dispIsSet s.plane c r = false :=
  ⟨regsMem [(1, 62), (2, 31)] 0x300 [0xC0], _, Or.inr (by decide), rfl, dispIsSet_dispClear⟩

theorem witness_KeySkipsFollowThePort : ((regs [(5, 0x0F)]).getV 5).toNat ≤ 15 := by decide

theorem witness_KeyNumberAbove15Halts : 15 < ((regs [(1, 0x10)]).getV 1).toNat := by decide

theorem witness_KeyWaitAndKeyDelivery : ∃ s t : State, s.run = .waitKey ∧ s.waitReg = 15 ∧ t.run ≠ .waitKey :=
  ⟨{ State.reset with run := .waitKey, waitReg := 15 }, State.reset, by decide⟩

theorem witness_DelayTickCommutesWithInstructions : ∃ (i : Instr) (s t : State), (∀ x, i ≠ .ldVxDt x) ∧
    (∀ x, i ≠ .ldDtVx x) ∧ exec i s = .next t ∧ s.dt = 1 :=
  ⟨.ldImm 1 2, { State.reset with dt := 1 }, _, nofun, nofun, rfl, rfl⟩

theorem witness_GeneralRegistersFrame : ∃ (i : Instr) (s t : State) (r : Nibble), exec i s = .next t ∧ ¬mayWriteV i r :=
  ⟨.loadRegs 3, { State.reset with i := 0x300 }, _, 4, rfl,
    fun h => absurd h (by decide : ¬((4 : Nibble).toNat ≤ (3 : Nibble).toNat))⟩

/-- CLS meets the hypotheses of every clause but the plane's; a FX55 that does not fault meets that one and, though it
may fault, the fault registers'. -/
theorem witness_SpecialStateFrame :
    (∃ (i : Instr) (s t : State), exec i s = .next t ∧ (∀ nnn, i ≠ .ldIndex nnn) ∧
      (∀ x, i ≠ .addIndex x ∧ i ≠ .ldFont x ∧ i ≠ .storeRegs x ∧ i ≠ .loadRegs x) ∧ (∀ nnn, i ≠ .call nnn) ∧
      i ≠ .ret ∧ (∀ x, i ≠ .ldDtVx x) ∧ (∀ x, i ≠ .ldStVx x) ∧ (∀ x, i ≠ .bcd x ∧ i ≠ .storeRegs x) ∧
      (∀ x, i ≠ .ldVxKey x) ∧ (∀ w, i ≠ .nopUnmatched w) ∧ ¬mayMovePc i ∧ ¬mayFault i ∧
      (∀ x nn, i ≠ .rnd x nn) ∧ ∀ x, i ≠ .skp x ∧ i ≠ .sknp x) ∧
    ∃ (i : Instr) (s t : State), exec i s = .next t ∧ i ≠ .cls ∧ (∀ x y n, i ≠ .drw x y n) ∧ mayFault i ∧
      t.run ≠ .halted :=
  ⟨⟨.cls, State.reset, _, rfl, nofun, fun _ => ⟨nofun, nofun, nofun, nofun⟩, nofun, nofun, nofun, nofun,
      fun _ => ⟨nofun, nofun⟩, nofun, nofun, id, id, nofun, fun _ => ⟨nofun, nofun⟩⟩,
    ⟨.storeRegs 0, { State.reset with i := 0xFFF }, _, rfl, nofun, nofun, trivial, by decide⟩⟩

theorem witness_OnlyTransfersMovePc : ∃ (i : Instr) (s t : State), exec i s = .next t ∧ t.pc ≠ s.pc :=
  ⟨.seImm 0 0, State.reset, _, rfl, by decide⟩

theorem witness_OnlyKeyWaitSuspends : ∃ (i : Instr) (s t : State), s.run = .running ∧ exec i s = .next t ∧
    t.run = .waitKey :=
  ⟨.ldVxKey 3, State.reset, _, rfl, rfl, rfl⟩

/-- One for each of the four handler faults. -/
theorem witness_HandlerFaultsArePrecise :
    (∃ s t : State, s.run = .running ∧ exec (.bcd 0) s = .next t ∧ t.run = .halted ∧ t.faultCause = 2) ∧
    (∃ s t : State, s.run = .running ∧ exec (.call 0) s = .next t ∧ t.run = .halted ∧ t.faultCause = 3) ∧
    (∃ s t : State, s.run = .running ∧ exec .ret s = .next t ∧ t.run = .halted ∧ t.faultCause = 4) ∧
    ∃ s t : State, s.run = .running ∧ exec (.skp 1) s = .next t ∧ t.run = .halted ∧ t.faultCause = 5 :=
  ⟨⟨{ State.reset with i := 0xFFE }, _, rfl, rfl, rfl, rfl⟩, ⟨frames 32, _, rfl, rfl, rfl, rfl⟩,
    ⟨State.reset, _, rfl, rfl, rfl, rfl⟩, ⟨regs [(1, 0x10)], _, rfl, rfl, rfl, rfl⟩⟩

/-- Each side of the conclusion: a reset, and a turn that is none. -/
theorem witness_OnlyResetLeavesHalted :
    (∃ s t : State, s.run = .halted ∧ step s = .next t ∧ t.run = .running) ∧
    ∃ s t : State, s.run = .halted ∧ step s = .next t ∧ t.dt ≠ s.dt :=
  ⟨⟨{ State.reset with run := .halted, schedule := [.reset [0x12, 0x00]] }, _, rfl, rfl, rfl⟩,
    ⟨{ State.reset with run := .halted, dt := 3, schedule := [.delayTick] }, _, rfl, rfl, by decide⟩⟩

/-- Each side of the conclusion: a key event, a reset, and a turn that is neither. -/
theorem witness_OnlyKeyEventOrResetEndsWait :
    (∃ s t : State, s.run = .waitKey ∧ step s = .next t ∧ t.run = .running) ∧
    (∃ s t : State, s.run = .waitKey ∧ step s = .next t ∧ t.run = .running) ∧
    ∃ s t : State, s.run = .waitKey ∧ step s = .next t ∧ t.run = .waitKey :=
  ⟨⟨{ State.reset with run := .waitKey, schedule := [.keyEvent 12] }, _, rfl, rfl, rfl⟩,
    ⟨{ State.reset with run := .waitKey, schedule := [.reset []] }, _, rfl, rfl, rfl⟩,
    ⟨{ State.reset with run := .waitKey, schedule := [.soundTick] }, _, rfl, rfl, rfl⟩⟩

theorem witness_LaunchBuildsMemoryImage : ∃ rom rom' : List Byte, rom.length = 3584 ∧ rom'.length = 3585 :=
  ⟨List.replicate 3584 0, List.replicate 3585 0, List.length_replicate, List.length_replicate⟩

theorem witness_ResetInputIsLaunch : ∃ (rom rom' : List Byte) (l : State), launch rom = .ok l ∧
    launch rom' = .error .romTooLarge :=
  ⟨[0x12, 0x00], List.replicate 3585 0, _, rfl, test_launch_rejects_large_rom⟩

/-- For the three invariants a step keeps: a state that meets all of them, and a step from it. -/
theorem witness_StepKeepsInvariants : ∃ s t : State, MemoryCanonical s ∧ PcBounded s ∧ FaultRecorded s ∧
    step s = .next t :=
  ⟨State.reset, _, by decide, ⟨by decide, fun _ h => absurd h (Nat.not_lt_zero _)⟩,
    ⟨by decide, by decide, fun _ => ⟨rfl, rfl⟩⟩, rfl⟩

theorem witness_ReachableStatesMeetInvariants : ∃ s : State, Reachable s ∧ s.schedule = [.soundTick] :=
  ⟨_, .launched [0x12, 0x00] [.soundTick] _ rfl, rfl⟩

end Sys2Proof.Tests
end

section
/-!
SUPPORT. What an instruction and a turn can do, said once for all of them as far as the machine's invariants ask: each
invariant below is a case split over these kinds of effect, not over the instructions.
-/

namespace Sys2Proof.Machine

open Sys2Proof.Claims

/-! ### The operations that answer an option -/

/-- R31: a push changes the depth and the slots alone. -/
theorem State.push_frame {s u : State} {w : Word} (h : s.push w = some u) :
    u = { s with depth := u.depth, stk := u.stk } := by
  unfold State.push at h
  split at h <;> cases h
  rfl

/-- R32: a pop changes the depth alone. -/
theorem State.pop_frame {s u : State} {w : Word} (h : s.pop = some (w, u)) : u = { s with depth := u.depth } := by
  unfold State.pop at h
  split at h <;> cases h
  rfl

/-- What holds of the occupied slots and of the word pushed holds of the occupied slots after the push. -/
theorem State.push_keeps_slots {s u : State} {w : Word} {P : Word → Prop} (h : s.push w = some u)
    (hs : ∀ j : Fin 32, j.val < s.depth.val → P s.stk[j]) (hw : P w) :
    ∀ j : Fin 32, j.val < u.depth.val → P u.stk[j] := by
  unfold State.push at h
  split at h <;> cases h
  intro j hj
  by_cases hnew : s.depth.val = j.val
  · simpa [hnew] using hw
  · have hold : j.val < s.depth.val := by simp only at hj; omega
    simpa [Vector.getElem_set_ne _ _ hnew] using hs j hold

/-- What holds of the occupied slots holds of the word popped, and of the slots still occupied. -/
theorem State.pop_keeps_slots {s u : State} {w : Word} {P : Word → Prop} (h : s.pop = some (w, u))
    (hs : ∀ j : Fin 32, j.val < s.depth.val → P s.stk[j]) :
    P w ∧ ∀ j : Fin 32, j.val < u.depth.val → P u.stk[j] := by
  unfold State.pop at h
  split at h <;> cases h
  next hpos =>
  refine ⟨hs ⟨s.depth.val - 1, by omega⟩ (by simp only; omega), fun j hj => hs j ?_⟩
  simp only at hj
  omega

/-- R67, R68: a write that is not refused keeps the memory canonical. -/
theorem State.memWrite_keeps_wf {s u : State} {addr : Word} {bytes : List Byte} (h : s.memWrite addr bytes = .ok u)
    (hm : s.mem.wf) : u.mem.wf := by
  obtain ⟨hrange, rfl⟩ := State.memWrite_cases h
  rcases hrange with hempty | hfits
  · rw [List.eq_nil_of_length_eq_zero hempty]
    exact hm
  · exact Memory.wf_writeBytes hm hfits

/-- R66: a read that is not refused answers as many bytes as were asked for. -/
theorem State.length_of_memRead {s : State} {addr : Word} {n : Nat} {bytes : List Byte}
    (h : s.memRead addr n = .ok bytes) : bytes.length = n := by
  unfold State.memRead at h
  split at h <;> cases h
  exact Memory.length_readBytes _ _ _

/-! ### What an instruction can do -/

/-- A step of the data instructions from `s` to `t`: general registers change only as R22 lists for `i`, the memory
stays canonical, and `PC`, the stack, `RUN`, `WAIT_REG`, the fault registers and the schedule are as before. -/
structure DataStep (i : Instr) (s t : State) : Prop where
  /-- R22. -/
  getV_eq : ∀ r, ¬mayWriteV i r → t.getV r = s.getV r
  /-- R67. -/
  keeps_wf : s.mem.wf → t.mem.wf
  /-- R125. -/
  frame : t = { s with
    v := t.v, i := t.i, dt := t.dt, st := t.st, mem := t.mem, plane := t.plane, draws := t.draws, outputs := t.outputs }

namespace DataStep

variable {i : Instr} {s t : State}

theorem refl (i : Instr) (s : State) : DataStep i s s := ⟨fun _ _ => rfl, id, rfl⟩

/-- Writing one more register keeps a data step, if R22 lists that register. -/
theorem setV (h : DataStep i s t) {x : Nibble} {b : Byte} (hx : mayWriteV i x) : DataStep i s (t.setV x b) where
  getV_eq r hr := by
    have hne : r ≠ x := fun e => hr (e ▸ hx)
    rw [State.getV_setV, if_neg hne, h.getV_eq r hr]
  keeps_wf := h.keeps_wf
  frame := by
    rw [h.frame]
    rfl

theorem setFlag (h : DataStep i s t) {b : Bool} (hf : mayWriteV i vf) : DataStep i s (t.setFlag b) := h.setV hf

/-- FX65 writes the registers up to `X` and no other. -/
theorem setRangeV {x : Nibble} {bytes : List Byte} {w : Word} (hlen : bytes.length = rangeCount x) :
    DataStep (.loadRegs x) s ((s.setRangeV 0 bytes).setI w) where
  getV_eq r hr := by
    have hx := x.isLt
    have hout : ¬(0 ≤ r.toNat ∧ r.toNat < 0 + bytes.length) := by
      simp only [mayWriteV] at hr
      rw [hlen, rangeCount]
      omega
    have hfit : 0 + bytes.length ≤ 16 := by
      rw [hlen, rangeCount]
      omega
    rw [State.getV_setI, State.getV_setRangeV s 0 bytes hfit r, dif_neg hout]
  keeps_wf hm := by
    rw [State.setRangeV_eq]
    exact hm
  frame := by
    rw [State.setRangeV_eq]
    rfl

/-- FX33 and FX55 write memory alone. -/
theorem memWrite {addr : Word} {bytes : List Byte} (h : s.memWrite addr bytes = .ok t) : DataStep i s t where
  getV_eq r _ := by
    obtain ⟨-, rfl⟩ := State.memWrite_cases h
    rfl
  keeps_wf := State.memWrite_keeps_wf h
  frame := by
    obtain ⟨-, rfl⟩ := State.memWrite_cases h
    rfl

/-- `I` may be written last. -/
theorem setI (h : DataStep i s t) {w : Word} : DataStep i s (t.setI w) where
  getV_eq := h.getV_eq
  keeps_wf := h.keeps_wf
  frame := by
    rw [h.frame]
    rfl

end DataStep

/-- The skip instructions (R144 to R147, R230, R231). -/
def IsSkip (i : Instr) : Prop :=
  (∃ x nn, i = .seImm x nn ∨ i = .sneImm x nn) ∨ (∃ x y, i = .seReg x y ∨ i = .sneReg x y) ∨
    ∃ x, i = .skp x ∨ i = .sknp x

/-- The kinds of effect an instruction has on the state `s` inside its handler, where `PC` is the advanced value. -/
inductive InstrEffect (s : State) : Instr → State → Prop where
  /-- A fault of R250, recorded at `A` (R252). -/
  | fault {i : Instr} (k : FaultKind) (info : Word) (hi : mayFault i) : InstrEffect s i (s.raise k (s.pc - 2) info)
  /-- JP and JP_V0: at most 0xFFF + 0xFF (R142, R148). -/
  | jump {i : Instr} (w : Word) (hi : ∃ nnn, i = .jp nnn ∨ i = .jpV0 nnn) (hw : w.toNat ≤ 0x10FE) :
      InstrEffect s i (s.setPc w)
  /-- CALL (R143). -/
  | call (nnn : Addr12) (u : State) (hu : s.push s.pc = some u) : InstrEffect s (.call nnn) (u.setPc (zextNNN nnn))
  /-- RET (R141). -/
  | ret (w : Word) (u : State) (hu : s.pop = some (w, u)) : InstrEffect s .ret (u.setPc w)
  /-- A skip, after a poll of the Keypad port or none. -/
  | skip {i : Instr} (n : Nat) (c : Bool) (hi : IsSkip i) : InstrEffect s i (State.skipIf { s with draws := n } c)
  /-- FX0A parks the Executor (R233). -/
  | wait (x : Nibble) : InstrEffect s (.ldVxKey x) (s.park x)
  /-- Every other instruction. -/
  | data {i : Instr} {t : State} (h : DataStep i s t) : InstrEffect s i t

/-- R252: a handler fault has a fault's effect. -/
theorem InstrEffect.of_handlerFault {i : Instr} {s t : State} {k : FaultKind} {info : Word} (hi : mayFault i)
    (h : handlerFault s k info = .next t) : InstrEffect s i t := by
  cases h
  exact .fault k info hi

theorem toNat_zextNNN_le (nnn : Addr12) : (zextNNN nnn).toNat ≤ 0xFFF := by
  have := nnn.isLt
  simp only [zextNNN, BitVec.toNat_setWidth]
  omega

/-- R148: the sum of BNNN cannot wrap. -/
theorem toNat_zextNNN_add_zextByte_le (nnn : Addr12) (b : Byte) : (zextNNN nnn + zextByte b).toNat ≤ 0x10FE := by
  have := nnn.isLt
  have := b.isLt
  simp only [zextNNN, zextByte, BitVec.toNat_add, BitVec.toNat_setWidth]
  omega

/-- What each instruction does is of one of these kinds. -/
theorem exec_effect {i : Instr} {s t : State} (h : exec i s = .next t) : InstrEffect s i t := by
  cases i with
  | cls => cases h; exact .data ⟨fun _ _ => rfl, id, rfl⟩
  | ret =>
    simp only [exec, execRet] at h
    split at h
    · exact .of_handlerFault trivial h
    · next w u hu => cases h; exact .ret w u hu
  | jp nnn => cases h; exact .jump _ ⟨nnn, .inl rfl⟩ (Nat.le_trans (toNat_zextNNN_le nnn) (by decide))
  | call nnn =>
    simp only [exec, execCall] at h
    split at h
    · exact .of_handlerFault trivial h
    · next u hu => cases h; exact .call nnn u hu
  | seImm x nn => cases h; exact .skip s.draws _ (.inl ⟨x, nn, .inl rfl⟩)
  | sneImm x nn => cases h; exact .skip s.draws _ (.inl ⟨x, nn, .inr rfl⟩)
  | seReg x y => cases h; exact .skip s.draws _ (.inr (.inl ⟨x, y, .inl rfl⟩))
  | sneReg x y => cases h; exact .skip s.draws _ (.inr (.inl ⟨x, y, .inr rfl⟩))
  | ldImm x nn => cases h; exact .data (.setV (.refl _ s) rfl)
  | addImm x nn => cases h; exact .data (.setV (.refl _ s) rfl)
  | ldReg x y => cases h; exact .data (.setV (.refl _ s) rfl)
  | or x y => cases h; exact .data (.setV (.refl _ s) rfl)
  | and x y => cases h; exact .data (.setV (.refl _ s) rfl)
  | xor x y => cases h; exact .data (.setV (.refl _ s) rfl)
  | addReg x y => cases h; exact .data (((DataStep.refl (.addReg x y) s).setFlag (.inr rfl)).setV (.inl rfl))
  | sub x y => cases h; exact .data (((DataStep.refl (.sub x y) s).setFlag (.inr rfl)).setV (.inl rfl))
  | shr x y => cases h; exact .data (((DataStep.refl (.shr x y) s).setFlag (.inr rfl)).setV (.inl rfl))
  | subn x y => cases h; exact .data (((DataStep.refl (.subn x y) s).setFlag (.inr rfl)).setV (.inl rfl))
  | shl x y =>
    cases h
    exact .data ((((DataStep.refl (.shl x y) s).setV (.inl rfl)).setFlag (.inr rfl)).setV (.inl rfl))
  | ldIndex nnn => cases h; exact .data (.setI (.refl _ s))
  | jpV0 nnn => cases h; exact .jump _ ⟨nnn, .inr rfl⟩ (toNat_zextNNN_add_zextByte_le nnn _)
  | rnd x nn =>
    cases h
    have hdraw : DataStep (.rnd x nn) s s.draw := ⟨fun _ _ => rfl, id, rfl⟩
    exact .data (hdraw.setV rfl)
  | drw x y n =>
    simp only [exec, execDrw] at h
    split at h
    · exact .of_handlerFault trivial h
    · cases h
      have hplane : ∀ p, DataStep (.drw x y n) s (s.setPlane p) := fun _ => ⟨fun _ _ => rfl, id, rfl⟩
      exact .data ((hplane _).setFlag rfl)
  | skp x =>
    simp only [exec, execSkp] at h
    split at h
    · exact .of_handlerFault trivial h
    · cases h; exact .skip (s.draws + 1) _ (.inr (.inr ⟨x, .inl rfl⟩))
  | sknp x =>
    simp only [exec, execSknp] at h
    split at h
    · exact .of_handlerFault trivial h
    · cases h; exact .skip (s.draws + 1) _ (.inr (.inr ⟨x, .inr rfl⟩))
  | ldVxDt x => cases h; exact .data (.setV (.refl _ s) rfl)
  | ldVxKey x => cases h; exact .wait x
  | ldDtVx x => cases h; exact .data ⟨fun _ _ => rfl, id, rfl⟩
  | ldStVx x => cases h; exact .data ⟨fun _ _ => rfl, id, rfl⟩
  | addIndex x => cases h; exact .data (.setI (.refl _ s))
  | ldFont x => cases h; exact .data (.setI (.refl _ s))
  | bcd x =>
    simp only [exec, execBcd] at h
    split at h
    · exact .of_handlerFault trivial h
    · next hw => cases h; exact .data (.memWrite hw)
  | storeRegs x =>
    simp only [exec, execStoreRegs] at h
    split at h
    · exact .of_handlerFault trivial h
    · next hw => cases h; exact .data (.setI (.memWrite hw))
  | loadRegs x =>
    simp only [exec, execLoadRegs] at h
    split at h
    · exact .of_handlerFault trivial h
    · next hr => cases h; exact .data (.setRangeV (State.length_of_memRead hr))
  | nopUnmatched w => cases h; exact .data ⟨fun _ _ => rfl, id, rfl⟩

/-! ### What a turn can do -/

/-- The kinds of effect a turn has on the state `s` (R120, R292). -/
inductive TurnEffect (s : State) : Turn → State → Prop where
  /-- The fetch fault (R253). -/
  | fetchFault (bad : Word) (hrun : s.run = .running) (hpc : 0xFFE < s.pc.toNat) :
      TurnEffect s .executor (s.raise .fetchOutOfRange s.pc bad)
  /-- The instruction step (R128). -/
  | instruction {t : State} (i : Instr) (hrun : s.run = .running) (hpc : s.pc.toNat ≤ 0xFFE)
      (h : InstrEffect s.advance i t) : TurnEffect s .executor t
  /-- The Executor's turn while waiting (log 2). -/
  | idle (hrun : s.run = .waitKey) : TurnEffect s .executor s
  /-- The delay tick (R263). -/
  | delayTick (b : Byte) : TurnEffect s .delayTick { s with dt := b }
  /-- The sound tick (R264). -/
  | soundTick (b : Byte) (outs : List Output) : TurnEffect s .soundTick { s with st := b, outputs := outs }
  /-- The key delivery step (R234). -/
  | keyDelivered (k : Nibble) (hrun : s.run = .waitKey) :
      TurnEffect s (.keyEvent k) { s.setV s.waitReg (zextKey k) with run := .running }
  /-- A key event at any other time (R44). -/
  | keyDropped (k : Nibble) (hrun : s.run ≠ .waitKey) : TurnEffect s (.keyEvent k) s
  /-- The reset input (R290, R292). -/
  | reset (rom : List Byte) (hrom : rom.length ≤ 3584) :
      TurnEffect s (.reset rom) { State.reset with
        mem := loadImage rom
        schedule := s.schedule
        draws := s.draws
        outputs := s.outputs }

/-- R120 to R128: the Executor's turn runs an instruction, faults on the fetch, or waits. -/
theorem executorTurn_effect {s t : State} (h : executorTurn s = .next t) : TurnEffect s .executor t := by
  unfold executorTurn at h
  split at h
  · next hrun =>
    by_cases hpc : s.pc.toNat ≤ 0xFFE
    · rw [instructionStep, fetch_ok s hpc] at h
      exact .instruction _ hrun hpc (exec_effect h)
    · rw [instructionStep, fetch_error s (by omega)] at h
      cases h
      exact .fetchFault _ hrun (by omega)
  · next hrun => cases h; exact .idle hrun
  · cases h

/-- What each turn does is of one of these kinds. -/
theorem takeTurn_effect {a : Turn} {s t : State} (h : takeTurn a s = .next t) : TurnEffect s a t := by
  cases a with
  | executor => exact executorTurn_effect h
  | delayTick =>
    cases h
    rw [delayTick_eq]
    exact .delayTick _
  | soundTick =>
    cases h
    rw [soundTick_eq]
    exact .soundTick _ _
  | keyEvent k =>
    cases h
    by_cases hrun : s.run = .waitKey
    · rw [deliverKey_waiting k s hrun]
      exact .keyDelivered k hrun
    · rw [deliverKey_dropped k s hrun]
      exact .keyDropped k hrun
  | reset rom =>
    obtain ⟨hrom, rfl⟩ := resetTurn_next h
    exact .reset rom hrom

/-- A step is one turn on the state with some schedule left: the first scheduled one, or the Executor's. -/
theorem step_effect {s t : State} (h : step s = .next t) : ∃ a turns,
    (s.schedule = a :: turns ∨ s.schedule = [] ∧ a = .executor ∧ turns = []) ∧
      TurnEffect { s with schedule := turns } a t := by
  cases hs : s.schedule with
  | nil =>
    rw [step_nil s hs] at h
    exact ⟨.executor, [], .inr ⟨rfl, rfl, rfl⟩, hs ▸ executorTurn_effect h⟩
  | cons a turns =>
    rw [step_cons s a turns hs] at h
    exact ⟨a, turns, .inl rfl, takeTurn_effect h⟩

/-- An invariant that does not read the schedule is kept by every step if every turn keeps it. -/
theorem step_keeps {P : State → Prop} (hsched : ∀ s turns, P s → P { s with schedule := turns })
    (hturn : ∀ a s t, P s → TurnEffect s a t → P t) {s t : State} (hs : P s) (h : step s = .next t) : P t := by
  obtain ⟨a, turns, -, he⟩ := step_effect h
  exact hturn a _ t (hsched s turns hs) he

end Sys2Proof.Machine
end

section
/-!
SUPPORT. The machine's invariants (rules R25, R35, R60): each at reset, under each kind of effect, and under a step.
-/

namespace Sys2Proof.Machine

open Sys2Proof.Claims

/-! ### Canonical memory -/

theorem memoryCanonical_reset : MemoryCanonical State.reset :=
  ⟨List.Pairwise.nil, fun _ hc => absurd hc List.not_mem_nil⟩

theorem InstrEffect.keeps_memoryCanonical {i : Instr} {s t : State} (h : InstrEffect s i t) (hs : MemoryCanonical s) :
    MemoryCanonical t := by
  cases h with
  | fault => exact hs
  | jump => exact hs
  | call nnn u hu => rw [State.push_frame hu]; exact hs
  | ret w u hu => rw [State.pop_frame hu]; exact hs
  | skip => rw [MemoryCanonical, State.skipIf_mem]; exact hs
  | wait => exact hs
  | data h => exact h.keeps_wf hs

theorem TurnEffect.keeps_memoryCanonical {a : Turn} {s t : State} (hs : MemoryCanonical s) (h : TurnEffect s a t) :
    MemoryCanonical t := by
  cases h with
  | fetchFault => exact hs
  | instruction i _ _ h => exact h.keeps_memoryCanonical hs
  | idle => exact hs
  | delayTick => exact hs
  | soundTick => exact hs
  | keyDelivered => exact hs
  | keyDropped => exact hs
  | reset rom hrom => exact wf_loadImage hrom

/-- R60, R67. -/
theorem step_keeps_memoryCanonical {s t : State} (hs : MemoryCanonical s) (h : step s = .next t) : MemoryCanonical t :=
  step_keeps (fun _ _ h => h) (fun _ _ _ => TurnEffect.keeps_memoryCanonical) hs h

/-! ### The bound on `PC` -/

theorem pcBounded_reset : PcBounded State.reset := ⟨by decide, fun _ h => absurd h (Nat.not_lt_zero _)⟩

theorem toNat_add_two_le (w : Word) : (w + 2).toNat ≤ w.toNat + 2 := by
  rw [BitVec.toNat_add]
  exact Nat.mod_le _ _

/-- R25: after a fetch the advanced `PC` is at most 0x1000, and that is all a CALL can push; a skip adds 2 to it, and
BNNN reaches 0x10FE. -/
theorem InstrEffect.pcBounded {i : Instr} {s t : State} (h : InstrEffect s i t) (hpc : s.pc.toNat ≤ 0x1000)
    (hstk : ∀ j : Fin 32, j.val < s.depth.val → s.stk[j].toNat ≤ 0x1000) : PcBounded t := by
  have hpc' : s.pc.toNat ≤ 0x10FE := by omega
  cases h with
  | fault => exact ⟨hpc', hstk⟩
  | jump w _ hw => exact ⟨hw, hstk⟩
  | call nnn u hu =>
    have hslots := State.push_keeps_slots (P := (·.toNat ≤ 0x1000)) hu hstk hpc
    exact ⟨Nat.le_trans (toNat_zextNNN_le nnn) (by decide), hslots⟩
  | ret w u hu =>
    obtain ⟨hw, hu⟩ := State.pop_keeps_slots (P := (·.toNat ≤ 0x1000)) hu hstk
    exact ⟨Nat.le_trans hw (by decide), hu⟩
  | skip n c =>
    cases c with
    | false => exact ⟨hpc', hstk⟩
    | true => exact ⟨Nat.le_trans (toNat_add_two_le s.pc) (by omega), hstk⟩
  | wait => exact ⟨hpc', hstk⟩
  | data h =>
    rw [h.frame]
    exact ⟨hpc', hstk⟩

theorem TurnEffect.keeps_pcBounded {a : Turn} {s t : State} (hs : PcBounded s) (h : TurnEffect s a t) :
    PcBounded t := by
  cases h with
  | fetchFault => exact hs
  | instruction i _ hpc h =>
    exact h.pcBounded (Nat.le_trans (toNat_add_two_le s.pc) (by omega)) hs.2
  | idle => exact hs
  | delayTick => exact hs
  | soundTick => exact hs
  | keyDelivered => exact hs
  | keyDropped => exact hs
  | reset => exact pcBounded_reset

/-! ### The fault registers -/

theorem faultRecorded_reset : FaultRecorded State.reset := ⟨by decide, by decide, fun _ => ⟨rfl, rfl⟩⟩

/-- R251, R252: raising a fault records it. -/
theorem faultRecorded_raise (s : State) (k : FaultKind) (a info : Word) : FaultRecorded (s.raise k a info) :=
  ⟨iff_of_true rfl k.code_ne_zero, k.code_le_five, fun h => absurd h k.code_ne_zero⟩

/-- Between states that are not halted, equal fault registers are enough. -/
theorem FaultRecorded.of_not_halted {s t : State} (h : FaultRecorded s) (hs : s.run ≠ .halted) (ht : t.run ≠ .halted)
    (hcause : t.faultCause = s.faultCause) (hpc : t.faultPc = s.faultPc) (hinfo : t.faultInfo = s.faultInfo) :
    FaultRecorded t := by
  obtain ⟨hiff, hcode, hzero⟩ := h
  have hnone : s.faultCause = 0 := not_not.mp fun hne => hs (hiff.mpr hne)
  unfold FaultRecorded
  rw [hcause, hpc, hinfo]
  exact ⟨iff_of_false ht (fun hne => hne hnone), hcode, hzero⟩

/-- R125, R252: an instruction that raises no fault leaves the fault registers as they were and, with the Executor
running, does not halt it. -/
theorem InstrEffect.fault_or_not_halted {i : Instr} {s t : State} (h : InstrEffect s i t) (hrun : s.run ≠ .halted) :
    (∃ k info, t = s.raise k (s.pc - 2) info) ∨ t.run ≠ .halted ∧
      t.faultCause = s.faultCause ∧ t.faultPc = s.faultPc ∧ t.faultInfo = s.faultInfo := by
  cases h with
  | fault k info => exact .inl ⟨k, info, rfl⟩
  | jump => exact .inr ⟨hrun, rfl, rfl, rfl⟩
  | call nnn u hu => rw [State.push_frame hu]; exact .inr ⟨hrun, rfl, rfl, rfl⟩
  | ret w u hu => rw [State.pop_frame hu]; exact .inr ⟨hrun, rfl, rfl, rfl⟩
  | skip n c => right; simp [hrun]
  | wait => exact .inr ⟨nofun, rfl, rfl, rfl⟩
  | data h => rw [h.frame]; exact .inr ⟨hrun, rfl, rfl, rfl⟩

theorem TurnEffect.keeps_faultRecorded {a : Turn} {s t : State} (hs : FaultRecorded s) (h : TurnEffect s a t) :
    FaultRecorded t := by
  cases h with
  | fetchFault => exact faultRecorded_raise s _ _ _
  | instruction i hrun _ h =>
    have hlive : s.run ≠ .halted := by simp [hrun]
    rcases h.fault_or_not_halted hlive with ⟨k, info, rfl⟩ | ⟨ht, hcause, hpc, hinfo⟩
    · exact faultRecorded_raise _ _ _ _
    · exact hs.of_not_halted hlive ht hcause hpc hinfo
  | idle => exact hs
  | delayTick => exact hs
  | soundTick => exact hs
  | keyDelivered k hrun => exact hs.of_not_halted (by simp [hrun]) nofun rfl rfl rfl
  | keyDropped => exact hs
  | reset => exact faultRecorded_reset

end Sys2Proof.Machine
end

section
/-!
SUPPORT. Pushing and popping lists of words (rules R29 to R32).
-/

namespace Sys2Proof.Machine

open Sys2Proof.Claims

/-- A push below 32 frames is undone by a pop: of any stack with the same frames it answers the pushed word and the
depth before, and the push changed no frame below. -/
theorem State.push_then_pop (s : State) (w : Word) (h : s.depth.val < 32) : ∃ s1, s.push w = some s1 ∧
    s1.depth.val = s.depth.val + 1 ∧ (∀ j : Fin 32, j.val < s.depth.val → s1.stk[j] = s.stk[j]) ∧
    ∀ u : State, u.depth = s1.depth → (∀ j : Fin 32, j.val < s1.depth.val → u.stk[j] = s1.stk[j]) →
      u.pop = some (w, { u with depth := s.depth }) := by
  refine ⟨_, State.push_some s w h, rfl, fun j hj => ?_, fun u hdepth hstk => ?_⟩
  · have hne : s.depth.val ≠ j.val := by omega
    simp [Vector.getElem_set_ne _ _ hne]
  · have hval : u.depth.val = s.depth.val + 1 := congrArg Fin.val hdepth
    have htop : u.stk[s.depth.val]'(by omega) = w := by
      have := hstk ⟨s.depth.val, h⟩ (Nat.lt_succ_self _)
      simpa using this
    rw [State.pop_some u (by omega)]
    simp [hval, htop]

/-- Popping one more word than `n` is popping `n` words and then one. -/
theorem popAll_succ {t u r : State} {n : Nat} {ws : List Word} {w : Word} (h : popAll t n = some (ws, u))
    (hw : u.pop = some (w, r)) : popAll t (n + 1) = some (ws ++ [w], r) := by
  induction n generalizing t ws with
  | zero =>
    cases h
    simp [popAll, hw]
  | succ n ih =>
    rw [popAll] at h
    obtain ⟨⟨w', t'⟩, hpop, hrest⟩ := Option.bind_eq_some_iff.mp h
    obtain ⟨⟨ws', u'⟩, hall, hcons⟩ := Option.map_eq_some_iff.mp hrest
    cases hcons
    rw [popAll, hpop, Option.bind_some, ih hall]
    rfl

/-- R29 to R32, by induction on the list: what is pushed after the first word is popped before it. -/
theorem popAll_pushAll (s : State) (ws : List Word) (h : s.depth.val + ws.length ≤ 32) : ∃ t u,
    pushAll s ws = some t ∧ t.depth.val = s.depth.val + ws.length ∧ popAll t ws.length = some (ws.reverse, u) ∧
      u.depth = s.depth ∧ ∀ j : Fin 32, j.val < s.depth.val → u.stk[j] = s.stk[j] := by
  induction ws generalizing s with
  | nil => exact ⟨s, s, rfl, rfl, rfl, rfl, fun _ _ => rfl⟩
  | cons w ws ih =>
    rw [List.length_cons] at h
    obtain ⟨s1, hpush, hdepth, hbelow, hpop⟩ := State.push_then_pop s w (by omega)
    obtain ⟨t, u, hall, htd, hpops, hud, hus⟩ := ih s1 (by omega)
    refine ⟨t, { u with depth := s.depth }, ?_, ?_, ?_, rfl, fun j hj => ?_⟩
    · rw [pushAll, hpush, Option.bind_some, hall]
    · rw [htd, hdepth, List.length_cons]
      omega
    · rw [List.length_cons, List.reverse_cons]
      exact popAll_succ hpops (hpop u hud hus)
    · rw [← hbelow j hj]
      exact hus j (by omega)

end Sys2Proof.Machine
end

section
/-!
SUPPORT. The obligations of `10_state.md`.
-/

namespace Sys2Proof.Machine

open Sys2Proof.Claims

/-- Settles O56: every turn keeps the bound, the instruction step because a fetch needs `PC <= 0xFFE`. -/
theorem stepKeepsPcBounded : Obligations.StepKeepsPcBounded := fun _ _ hs h =>
  step_keeps (fun _ _ h => h) (fun _ _ _ => TurnEffect.keeps_pcBounded) hs h

/-- Settles O57: a turn records the fault it raises, and any other leaves the fault registers alone. -/
theorem stepKeepsFaultRecord : Obligations.StepKeepsFaultRecord := fun _ _ hs h =>
  step_keeps (fun _ _ h => h) (fun _ _ _ => TurnEffect.keeps_faultRecorded) hs h

/-- Settles O16, by `popAll_pushAll`. -/
theorem stackIsLastInFirstOut : Obligations.StackIsLastInFirstOut := by
  intro s ws h
  obtain ⟨t, u, hpush, htd, hpop, hud, hus⟩ := popAll_pushAll s ws h
  refine ⟨t, u, hpush, ?_, hpop, ?_, hus⟩
  · simp only [State.sp, htd]
    omega
  · rw [State.sp, hud, State.sp]

/-- Settles O45: only a data step writes general registers, and those R22 lists. -/
theorem generalRegistersFrame : Obligations.GeneralRegistersFrame := by
  intro i s t r h hr
  cases exec_effect h with
  | fault => rfl
  | jump => rfl
  | call nnn u hu => rw [State.push_frame hu]; rfl
  | ret w u hu => rw [State.pop_frame hu]; rfl
  | skip n c => rw [State.getV_skipIf]; rfl
  | wait => rfl
  | data h => exact h.getV_eq r hr

/-- Settles O47: the other kinds of effect leave `PC` as it was. -/
theorem onlyTransfersMovePc : Obligations.OnlyTransfersMovePc := by
  intro i s t h hmoved
  cases exec_effect h with
  | fault => exact absurd rfl hmoved
  | jump w hi =>
    obtain ⟨nnn, hjp | hjpV0⟩ := hi
    · exact .inr (.inl ⟨nnn, .inl hjp⟩)
    · exact .inr (.inl ⟨nnn, .inr (.inr hjpV0)⟩)
  | call nnn => exact .inr (.inl ⟨nnn, .inr (.inl rfl)⟩)
  | ret => exact .inl rfl
  | skip n c hi =>
    cases c with
    | false => exact absurd rfl hmoved
    | true => exact .inr (.inr ⟨rfl, hi⟩)
  | wait => exact absurd rfl hmoved
  | data h => exact absurd (congrArg State.pc h.frame) hmoved

/-- Settles O59, by induction on the run: a launch starts from reset with a canonical image, and a step keeps each
invariant. -/
theorem reachableStatesMeetInvariants : Obligations.ReachableStatesMeetInvariants := by
  intro s hreach
  have hinv : MemoryCanonical s ∧ PcBounded s ∧ FaultRecorded s := by
    induction hreach with
    | launched rom turns s h =>
      obtain ⟨hrom, rfl⟩ := launch_ok h
      exact ⟨wf_loadImage hrom, pcBounded_reset, faultRecorded_reset⟩
    | stepped s t _ h ih =>
      obtain ⟨hmem, hpc, hfault⟩ := ih
      exact ⟨step_keeps_memoryCanonical hmem h, stepKeepsPcBounded s t hpc h, stepKeepsFaultRecord s t hfault h⟩
  obtain ⟨hmem, hpc, hfault⟩ := hinv
  exact ⟨hpc.1, hmem, hpc, hfault⟩

/-- Settles O52, field by field. -/
theorem resetState : Obligations.ResetState :=
  ⟨rfl, rfl, fun x => Vector.getElem_replicate x.isLt, rfl, rfl, rfl, rfl, rfl, rfl, rfl, dispIsSet_dispClear⟩

/-- Settles O58. -/
theorem resetMeetsInvariants : Obligations.ResetMeetsInvariants :=
  ⟨memoryCanonical_reset, pcBounded_reset, faultRecorded_reset⟩

end Sys2Proof.Machine
end

section
/-!
SUPPORT. Single bytes of memory, written and read (rules R66 to R68), and what FX55 leaves in memory (R194).
-/

namespace Sys2Proof.Machine

/-- R66: a read of one byte inside memory answers that byte. -/
theorem State.memRead_byte (s : State) {addr : Word} (h : addr.toNat ≤ 0xFFF) :
    s.memRead addr 1 = .ok [s.mem.readByte addr.toNat] :=
  State.memRead_ok s addr 1 (.inr (by simp only [memSize]; omega))

/-- R67: a write of one byte inside memory replaces the memory alone. -/
theorem State.memWrite_byte (s : State) {addr : Word} (b : Byte) (h : addr.toNat ≤ 0xFFF) :
    s.memWrite addr [b] = .ok { s with mem := s.mem.writeByte addr.toNat b } :=
  State.memWrite_ok s addr [b] (.inr (by simp only [memSize, List.length_singleton]; omega))

/-- R66, R68: above 0xFFF a read of one byte reports that byte's address. -/
theorem State.memRead_byte_error (s : State) {addr : Word} (h : 0xFFF < addr.toNat) :
    s.memRead addr 1 = .error addr := by
  have hsize : memSize ≤ addr.toNat := by simp only [memSize]; omega
  rw [State.memRead_error s addr 1 Nat.one_pos (by omega), if_pos hsize]

/-- R67, R68: above 0xFFF a write of one byte reports that byte's address. -/
theorem State.memWrite_byte_error (s : State) {addr : Word} (b : Byte) (h : 0xFFF < addr.toNat) :
    s.memWrite addr [b] = .error addr := by
  have hsize : memSize ≤ addr.toNat := by simp only [memSize]; omega
  rw [State.memWrite_error s addr [b] Nat.one_pos (by rw [List.length_singleton]; omega), if_pos hsize]

/-- R194: the last byte FX55 stores is at `I + X`. -/
theorem State.rangeV_fits {s : State} {x : Nibble} (h : s.i.toNat + x.toNat ≤ 0xFFF) :
    s.i.toNat + (s.rangeV x).length ≤ memSize := by
  rw [State.length_rangeV, memSize]
  omega

/-- R194: with its range inside memory, FX55 writes `V[0]` to `V[X]` at `I`, moves `I` past them, and changes nothing
else. -/
theorem exec_storeRegs_ok (s : State) {x : Nibble} (h : s.i.toNat + x.toNat ≤ 0xFFF) :
    exec (.storeRegs x) s =
      .next (State.setI { s with mem := s.mem.writeBytes s.i.toNat (s.rangeV x) } (s.pastRange x)) := by
  simp only [exec, execStoreRegs, State.memWrite_ok s s.i _ (.inr (State.rangeV_fits h))]

/-- R194: after FX55 the byte at `I + r` is `V[r]`, for each register stored. -/
theorem readByte_storeRegs {s t : State} {x : Nibble} (hm : MemoryCanonical s) (h : s.i.toNat + x.toNat ≤ 0xFFF)
    (ht : exec (.storeRegs x) s = .next t) (r : Nibble) (hr : r.toNat ≤ x.toNat) :
    t.mem.readByte (s.i.toNat + r.toNat) = s.getV r := by
  rw [exec_storeRegs_ok s h] at ht
  cases ht
  have hin : s.i.toNat ≤ s.i.toNat + r.toNat ∧ s.i.toNat + r.toNat < s.i.toNat + (s.rangeV x).length := by
    rw [State.length_rangeV]
    omega
  rw [State.setI_mem, Memory.readByte_writeBytes hm _ _ (State.rangeV_fits h), dif_pos hin, State.getElem_rangeV,
    Nat.add_sub_cancel_left, BitVec.ofNat_toNat, BitVec.setWidth_eq]

end Sys2Proof.Machine
end

section
/-!
SUPPORT. The obligations of `20_memory.md`.
-/

namespace Sys2Proof.Machine

/-- Settles O55: the one instruction effect that writes memory, and a launch, build it by checked writes. -/
theorem stepKeepsMemoryCanonical : Obligations.StepKeepsMemoryCanonical := fun _ _ => step_keeps_memoryCanonical

/-- Settles O32: inside memory the write is one `writeByte` of a canonical memory; above it the range check reports
the address. -/
theorem writtenByteReadsBack : Obligations.WrittenByteReadsBack := by
  intro s addr b hm
  have hread := Memory.readByte_writeByte s.mem hm.1 addr.toNat b
  refine ⟨fun h => ⟨_, State.memWrite_byte s b h, ?_, ?_, fun a ha => ?_, rfl⟩, fun h => ?_⟩
  · rw [State.memRead_byte _ h, hread, if_pos rfl]
  · exact State.memWrite_keeps_wf (State.memWrite_byte s b h) hm
  · rw [hread, if_neg ha]
  · exact ⟨State.memWrite_byte_error s b h, State.memRead_byte_error s h⟩

/-- Settles O33: `PC` is as before FX55, which stored `V[0]` and `V[1]` in the two bytes the fetch reads. -/
theorem storeIsSeenByNextFetch : Obligations.StoreIsSeenByNextFetch := by
  intro x s t hm hi hx hrange ht
  have hfits : s.i.toNat + x.toNat ≤ 0xFFF := hi ▸ hrange
  have h0 : t.mem.readByte s.pc.toNat = s.getV 0 := hi ▸ readByte_storeRegs hm hfits ht 0 (Nat.zero_le _)
  have h1 : t.mem.readByte (s.pc.toNat + 1) = s.getV 1 := hi ▸ readByte_storeRegs hm hfits ht 1 hx
  have hpc : t.pc = s.pc := by
    rw [exec_storeRegs_ok s hfits] at ht
    cases ht
    rfl
  rw [fetch_ok t (by rw [hpc]; omega), hpc, h0, h1]

end Sys2Proof.Machine
end

section
/-!
SUPPORT. The decoder against the encoder (rules R93, R95, R96) and against R97's list of unmatched words.
-/

namespace Sys2Proof

/-! ### The fields as numbers, and words put together from their fields -/

theorem toNat_fieldInstr (w : Word) : (fieldInstr w).toNat = w.toNat / 4096 := by
  have := w.isLt
  simp only [fieldInstr, BitVec.extractLsb'_toNat, Nat.shiftRight_eq_div_pow]
  omega

theorem toNat_fieldN (w : Word) : (fieldN w).toNat = w.toNat % 16 := by
  simp [fieldN]

theorem toNat_fieldNN (w : Word) : (fieldNN w).toNat = w.toNat % 256 := by
  simp [fieldNN]

theorem toNat_fieldNNN (w : Word) : (fieldNNN w).toNat = w.toNat % 4096 := by
  simp [fieldNNN]

theorem ofNNN_fieldNNN {w : Word} {a : Nibble} (h : fieldInstr w = a) : ofNNN a (fieldNNN w) = w :=
  h ▸ ofNNN_fields w

theorem ofNNN_of_fieldNNN {w : Word} {a : Nibble} {nnn : Addr12} (h : fieldInstr w = a) (hnnn : fieldNNN w = nnn) :
    ofNNN a nnn = w :=
  hnnn ▸ ofNNN_fieldNNN h

theorem ofXNN_fieldNN {w : Word} {a : Nibble} (h : fieldInstr w = a) : ofXNN a (fieldX w) (fieldNN w) = w :=
  h ▸ ofXNN_fields w

theorem ofXNN_of_fieldNN {w : Word} {a : Nibble} {nn : Byte} (h : fieldInstr w = a) (hnn : fieldNN w = nn) :
    ofXNN a (fieldX w) nn = w :=
  hnn ▸ ofXNN_fieldNN h

theorem ofNibbles_of_fieldN {w : Word} {a n : Nibble} (h : fieldInstr w = a) (hn : fieldN w = n) :
    ofNibbles a (fieldX w) (fieldY w) n = w :=
  h ▸ hn ▸ ofNibbles_fields w

/-! ### R97's list, read by the fields -/

/-- R97's list in the fields of R91, which the decoder's dispatch tests. -/
theorem unmatchedWord_iff (w : Word) : unmatchedWord w = true ↔
    (fieldInstr w = 0x0 ∧ fieldNNN w ≠ 0x0E0#12 ∧ fieldNNN w ≠ 0x0EE#12) ∨
    ((fieldInstr w = 0x5 ∨ fieldInstr w = 0x9) ∧ fieldN w ≠ 0x0#4) ∨
    (fieldInstr w = 0x8 ∧ fieldN w ∈ [0x8#4, 0x9, 0xA, 0xB, 0xC, 0xD, 0xF]) ∨
    (fieldInstr w = 0xE ∧ fieldNN w ≠ 0x9E#8 ∧ fieldNN w ≠ 0xA1#8) ∨
    (fieldInstr w = 0xF ∧ fieldNN w ∉ [0x07#8, 0x0A#8, 0x15#8, 0x18#8, 0x1E#8, 0x29#8, 0x33#8, 0x55#8, 0x65#8]) := by
  simp [unmatchedWord, BitVec.toNat_eq, toNat_fieldInstr, toNat_fieldN, toNat_fieldNN, toNat_fieldNNN]
  omega

/-! ### The encoding of what is decoded (R93) -/

/-- A well-formed instruction whose word is `w`. -/
def Reads (w : Word) (i : Instr) : Prop := WellFormed i = true ∧ encodeWord i = w

theorem reads_decode0 {w : Word} (h : fieldInstr w = 0x0) : Reads w (decode0 w) := by
  unfold decode0
  split_ifs with h1 h2
  · exact ⟨rfl, ofNNN_of_fieldNNN h h1⟩
  · exact ⟨rfl, ofNNN_of_fieldNNN h h2⟩
  · exact ⟨(unmatchedWord_iff w).mpr (.inl ⟨h, h1, h2⟩), rfl⟩

theorem reads_decode5 {w : Word} (h : fieldInstr w = 0x5) : Reads w (decode5 w) := by
  unfold decode5
  split_ifs with hn
  · exact ⟨rfl, ofNibbles_of_fieldN h hn⟩
  · exact ⟨(unmatchedWord_iff w).mpr (.inr (.inl ⟨.inl h, hn⟩)), rfl⟩

theorem reads_decode9 {w : Word} (h : fieldInstr w = 0x9) : Reads w (decode9 w) := by
  unfold decode9
  split_ifs with hn
  · exact ⟨rfl, ofNibbles_of_fieldN h hn⟩
  · exact ⟨(unmatchedWord_iff w).mpr (.inr (.inl ⟨.inr h, hn⟩)), rfl⟩

theorem reads_decode8 {w : Word} (h : fieldInstr w = 0x8) : Reads w (decode8 w) := by
  unfold decode8
  simp only
  split_ifs
  case neg =>
    have hn : fieldN w ∈ [0x8#4, 0x9, 0xA, 0xB, 0xC, 0xD, 0xF] := by
      have := nibble_cases (fieldN w)
      simp_all
    exact ⟨(unmatchedWord_iff w).mpr (.inr (.inr (.inl ⟨h, hn⟩))), rfl⟩
  all_goals exact ⟨rfl, ofNibbles_of_fieldN h ‹_›⟩

theorem reads_decodeE {w : Word} (h : fieldInstr w = 0xE) : Reads w (decodeE w) := by
  unfold decodeE
  simp only
  split_ifs with h1 h2
  · exact ⟨rfl, ofXNN_of_fieldNN h h1⟩
  · exact ⟨rfl, ofXNN_of_fieldNN h h2⟩
  · exact ⟨(unmatchedWord_iff w).mpr (.inr (.inr (.inr (.inl ⟨h, h1, h2⟩)))), rfl⟩

theorem reads_decodeF {w : Word} (h : fieldInstr w = 0xF) : Reads w (decodeF w) := by
  unfold decodeF
  simp only
  split_ifs
  case neg =>
    exact ⟨(unmatchedWord_iff w).mpr (by simp_all), rfl⟩
  all_goals exact ⟨rfl, ofXNN_of_fieldNN h ‹_›⟩

/-- R93: every word decodes to a well-formed instruction whose word it is. -/
theorem reads_decodeWord (w : Word) : Reads w (decodeWord w) := by
  rcases nibble_cases (fieldInstr w) with h | h | h | h | h | h | h | h | h | h | h | h | h | h | h | h <;>
    simp only [decodeWord, h]
  exacts [reads_decode0 h, ⟨rfl, ofNNN_fieldNNN h⟩, ⟨rfl, ofNNN_fieldNNN h⟩, ⟨rfl, ofXNN_fieldNN h⟩,
    ⟨rfl, ofXNN_fieldNN h⟩, reads_decode5 h, ⟨rfl, ofXNN_fieldNN h⟩, ⟨rfl, ofXNN_fieldNN h⟩,
    reads_decode8 h, reads_decode9 h, ⟨rfl, ofNNN_fieldNNN h⟩, ⟨rfl, ofNNN_fieldNNN h⟩,
    ⟨rfl, ofXNN_fieldNN h⟩, ⟨rfl, ofNibbles_of_fieldN h rfl⟩, reads_decodeE h, reads_decodeF h]

theorem wellFormed_decodeWord (w : Word) : WellFormed (decodeWord w) = true := (reads_decodeWord w).1

theorem encodeWord_decodeWord (w : Word) : encodeWord (decodeWord w) = w := (reads_decodeWord w).2

/-- R98: an unmatched word is carried as it stands. -/
theorem eq_of_decodeWord_eq_nopUnmatched {w v : Word} (h : decodeWord w = .nopUnmatched v) : v = w := by
  simpa only [h, encodeWord] using encodeWord_decodeWord w

/-- R97: the words listed are unmatched; in each family the dispatch below the primary nibble finds no row. -/
theorem decodeWord_of_unmatchedWord {w : Word} (hw : unmatchedWord w = true) : decodeWord w = .nopUnmatched w := by
  rcases (unmatchedWord_iff w).mp hw with ⟨h, h1, h2⟩ | ⟨h | h, hn⟩ | ⟨h, hn⟩ | ⟨h, h1, h2⟩ | ⟨h, hnn⟩
  · simp [decodeWord, h, decode0, h1, h2]
  · simp [decodeWord, h, decode5, hn]
  · simp [decodeWord, h, decode9, hn]
  · simp only [List.mem_cons, List.not_mem_nil, or_false] at hn
    rcases hn with hn | hn | hn | hn | hn | hn | hn <;> simp [decodeWord, h, decode8, hn]
  · simp [decodeWord, h, decodeE, h1, h2]
  · simp only [List.mem_cons, List.not_mem_nil, or_false, not_or] at hnn
    simp [decodeWord, h, decodeF, hnn]

/-- R97: conversely, the decoder answers an unmatched instruction for listed words alone. -/
theorem decodeWord_eq_nopUnmatched_iff (w : Word) : decodeWord w = .nopUnmatched w ↔ unmatchedWord w = true :=
  ⟨fun h => by simpa only [h, WellFormed] using wellFormed_decodeWord w, decodeWord_of_unmatchedWord⟩

/-- R90 to R96: the decoder reads every operand back from a well-formed instruction's word. -/
theorem decodeWord_encodeWord {i : Instr} (h : WellFormed i = true) : decodeWord (encodeWord i) = i := by
  cases i with
  | cls | ret => decide
  | jp | call | ldIndex | jpV0 => simp [encodeWord, decodeWord]
  | seImm | sneImm | ldImm | addImm | rnd => simp [encodeWord, decodeWord]
  | drw => simp [encodeWord, decodeWord]
  | seReg => simp [encodeWord, decodeWord, decode5]
  | sneReg => simp [encodeWord, decodeWord, decode9]
  | ldReg | or | and | xor | addReg | sub | shr | subn | shl => simp [encodeWord, decodeWord, decode8]
  | skp | sknp => simp [encodeWord, decodeWord, decodeE]
  | ldVxDt | ldVxKey | ldDtVx | ldStVx | addIndex | ldFont | bcd | storeRegs | loadRegs =>
    simp [encodeWord, decodeWord, decodeF]
  | nopUnmatched w => exact decodeWord_of_unmatchedWord h

end Sys2Proof
end

section
/-!
SUPPORT. The decoder against the opcode map, the table of `match` and `mask` (rules R95, R96).
-/

namespace Sys2Proof

/-- A fitting word has the row's field wherever the mask fixes all of it. -/
theorem OpcodeRow.extract_of_fits {r : OpcodeRow} {w : Word} (h : r.fits w = true) {start len : Nat}
    (hmask : r.maskBits.extractLsb' start len = BitVec.allOnes len) :
    w.extractLsb' start len = r.matchBits.extractLsb' start len := by
  rw [← eq_of_beq h, BitVec.extractLsb'_and, hmask, BitVec.and_allOnes]

theorem OpcodeRow.fieldInstr_of_fits {r : OpcodeRow} {w : Word} (h : r.fits w = true)
    (hmask : fieldInstr r.maskBits = 0xF) : fieldInstr w = fieldInstr r.matchBits := extract_of_fits h hmask

theorem OpcodeRow.fieldNNN_of_fits {r : OpcodeRow} {w : Word} (h : r.fits w = true)
    (hmask : fieldNNN r.maskBits = 0xFFF) : fieldNNN w = fieldNNN r.matchBits := extract_of_fits h hmask

theorem OpcodeRow.fieldNN_of_fits {r : OpcodeRow} {w : Word} (h : r.fits w = true)
    (hmask : fieldNN r.maskBits = 0xFF) : fieldNN w = fieldNN r.matchBits := extract_of_fits h hmask

theorem OpcodeRow.fieldN_of_fits {r : OpcodeRow} {w : Word} (h : r.fits w = true)
    (hmask : fieldN r.maskBits = 0xF) : fieldN w = fieldN r.matchBits := extract_of_fits h hmask

/-- What a row of the opcode map fixes of R91's fields, in the families that R97 splits. -/
theorem row_fixes : ∀ r ∈ opcodeMap, fieldInstr r.maskBits = 0xF ∧
    (fieldInstr r.matchBits = 0x0 → fieldNNN r.maskBits = 0xFFF ∧ fieldNNN r.matchBits ∈ [0x0E0#12, 0x0EE]) ∧
    (fieldInstr r.matchBits ∈ [0x5, 0x9] → fieldN r.maskBits = 0xF ∧ fieldN r.matchBits = 0x0) ∧
    (fieldInstr r.matchBits = 0x8 →
      fieldN r.maskBits = 0xF ∧ fieldN r.matchBits ∉ [0x8#4, 0x9, 0xA, 0xB, 0xC, 0xD, 0xF]) ∧
    (fieldInstr r.matchBits = 0xE → fieldNN r.maskBits = 0xFF ∧ fieldNN r.matchBits ∈ [0x9E#8, 0xA1]) ∧
    (fieldInstr r.matchBits = 0xF → fieldNN r.maskBits = 0xFF ∧
      fieldNN r.matchBits ∈ [0x07#8, 0x0A#8, 0x15#8, 0x18#8, 0x1E#8, 0x29#8, 0x33#8, 0x55#8, 0x65#8]) := by
  decide

/-- R97: an unmatched word fits no row, because the rows of its family fix the field that R97 names. -/
theorem fits_eq_false_of_unmatchedWord {w : Word} (hw : unmatchedWord w = true) {r : OpcodeRow} (hr : r ∈ opcodeMap) :
    r.fits w = false := by
  refine Bool.eq_false_iff.mpr fun hfits => ?_
  obtain ⟨hinstr, h0, h59, h8, hE, hF⟩ := row_fixes r hr
  rw [unmatchedWord_iff, OpcodeRow.fieldInstr_of_fits hfits hinstr] at hw
  rcases hw with ⟨h, h1, h2⟩ | ⟨h, hn⟩ | ⟨h, hn⟩ | ⟨h, h1, h2⟩ | ⟨h, hnn⟩
  · obtain ⟨hmask, hmatch⟩ := h0 h
    rw [← OpcodeRow.fieldNNN_of_fits hfits hmask] at hmatch
    simp [h1, h2] at hmatch
  · obtain ⟨hmask, hmatch⟩ := h59 (by simpa using h)
    exact hn ((OpcodeRow.fieldN_of_fits hfits hmask).trans hmatch)
  · obtain ⟨hmask, hmatch⟩ := h8 h
    exact hmatch (OpcodeRow.fieldN_of_fits hfits hmask ▸ hn)
  · obtain ⟨hmask, hmatch⟩ := hE h
    rw [← OpcodeRow.fieldNN_of_fits hfits hmask] at hmatch
    simp [h1, h2] at hmatch
  · obtain ⟨hmask, hmatch⟩ := hF h
    exact hnn (OpcodeRow.fieldNN_of_fits hfits hmask ▸ hmatch)

/-- No word fits two rows: where both masks fix a bit, two different rows ask for different values of some bit. -/
theorem row_eq_of_fits {w : Word} : ∀ r ∈ opcodeMap, ∀ q ∈ opcodeMap, r.fits w = true → q.fits w = true → r = q := by
  have hdisjoint : ∀ r ∈ opcodeMap, ∀ q ∈ opcodeMap,
      r.matchBits &&& q.maskBits = q.matchBits &&& r.maskBits → r = q := by decide
  intro r hr q hq hfr hfq
  refine hdisjoint r hr q hq ?_
  rw [← eq_of_beq hfr, ← eq_of_beq hfq, BitVec.and_assoc, BitVec.and_assoc, BitVec.and_comm r.maskBits]

/-- Every word the decoder does not find unmatched has a row for its instruction. -/
theorem unmatched_or_exists_row (w : Word) :
    decodeWord w = .nopUnmatched w ∨ ∃ r ∈ opcodeMap, r.id = idOf (decodeWord w) := by
  cases h : decodeWord w with
  | nopUnmatched v => exact .inl (by rw [eq_of_decodeWord_eq_nopUnmatched h])
  | _ => exact .inr (by simp [opcodeMap, idOf])

open Laws.EncodeFits in
/-- R96: the word of every instruction fits the row of that instruction. -/
theorem encodeFits : ∀ i, Statement i
  | .cls => cls
  | .ret => ret
  | .jp nnn => jp nnn
  | .call nnn => call nnn
  | .seImm x nn => seImm x nn
  | .sneImm x nn => sneImm x nn
  | .seReg x y => seReg x y
  | .ldImm x nn => ldImm x nn
  | .addImm x nn => addImm x nn
  | .ldReg x y => ldReg x y
  | .or x y => or x y
  | .and x y => and x y
  | .xor x y => xor x y
  | .addReg x y => addReg x y
  | .sub x y => sub x y
  | .shr x y => shr x y
  | .subn x y => subn x y
  | .shl x y => shl x y
  | .sneReg x y => sneReg x y
  | .ldIndex nnn => ldIndex nnn
  | .jpV0 nnn => jpV0 nnn
  | .rnd x nn => rnd x nn
  | .drw x y n => drw x y n
  | .skp x => skp x
  | .sknp x => sknp x
  | .ldVxDt x => ldVxDt x
  | .ldVxKey x => ldVxKey x
  | .ldDtVx x => ldDtVx x
  | .ldStVx x => ldStVx x
  | .addIndex x => addIndex x
  | .ldFont x => ldFont x
  | .bcd x => bcd x
  | .storeRegs x => storeRegs x
  | .loadRegs x => loadRegs x
  | .nopUnmatched w => nopUnmatched w

/-- R96: a word fits the row of the instruction it selects. -/
theorem fits_of_id_eq {w : Word} {r : OpcodeRow} (hr : r ∈ opcodeMap) (hid : r.id = idOf (decodeWord w)) :
    r.fits w = true := by
  simpa only [encodeWord_decodeWord] using encodeFits (decodeWord w) r hr hid

/-- R95, R96: and it fits no other row. -/
theorem fits_iff_idOf_decodeWord (w : Word) {r : OpcodeRow} (hr : r ∈ opcodeMap) :
    r.fits w = true ↔ idOf (decodeWord w) = r.id := by
  refine ⟨fun hfits => ?_, fun hid => fits_of_id_eq hr hid.symm⟩
  rcases unmatched_or_exists_row w with hnop | ⟨q, hq, hid⟩
  · have hnone := fits_eq_false_of_unmatchedWord ((decodeWord_eq_nopUnmatched_iff w).mp hnop) hr
    exact absurd hfits (Bool.eq_false_iff.mp hnone)
  · rw [row_eq_of_fits r hr q hq hfits (fits_of_id_eq hq hid), hid]

end Sys2Proof
end

section
/-!
SUPPORT. How many words are unmatched (rule R97): counting by families, and in a family by the key of its dispatch.
-/

namespace Sys2Proof

/-- Counting below `n * m` block by block. -/
theorem countP_range_mul (p : Nat → Bool) (n m : Nat) :
    (List.range (n * m)).countP p = ((List.range n).map fun j => (List.range m).countP fun r => p (j * m + r)).sum := by
  induction n with
  | zero => simp
  | succ n ih =>
    rw [Nat.succ_mul, List.range_add, List.countP_append, ih, List.range_succ, List.countP_map]
    simp [Function.comp_def]

/-- Of the numbers below `n * m`, those whose remainder by `m` is not in a list of some remainders. -/
theorem countP_range_not_contains_mod {l : List Nat} {m : Nat} (hnodup : l.Nodup) (hlt : ∀ k ∈ l, k < m) (n : Nat) :
    (List.range (n * m)).countP (fun k => !l.contains (k % m)) = n * (m - l.length) := by
  have hperm : ((List.range m).filter l.contains).Perm l :=
    (List.perm_ext_iff_of_nodup (List.nodup_range.filter _) hnodup).mpr fun k => by simpa using hlt k
  have hblock : (List.range m).countP (fun r => !l.contains r) = m - l.length := by
    have := List.length_eq_countP_add_countP l.contains (l := List.range m)
    rw [List.countP_eq_length_filter, hperm.length_eq, List.length_range] at this
    simp only [Bool.not_eq_true, Bool.decide_eq_false] at this
    omega
  have hmod : ∀ j, ((List.range m).countP fun r => !l.contains ((j * m + r) % m)) = m - l.length := fun j => by
    rw [← hblock]
    exact List.countP_congr fun r hr => by rw [Nat.mul_add_mod', Nat.mod_eq_of_lt (List.mem_range.mp hr)]
  simp only [countP_range_mul, hmod, List.map_const', List.sum_replicate, List.length_range, smul_eq_mul]

/-- What the dispatch of a family (R95) looks at below the primary nibble: how many values it tells apart, and the
ones that select a row. -/
def dispatchKeys : Nat → Nat × List Nat
  | 0x0 => (4096, [0x0E0, 0x0EE])
  | 0x5 => (16, [0x0])
  | 0x8 => (16, [0x0, 0x1, 0x2, 0x3, 0x4, 0x5, 0x6, 0x7, 0xE])
  | 0x9 => (16, [0x0])
  | 0xE => (256, [0x9E, 0xA1])
  | 0xF => (256, [0x07, 0x0A, 0x15, 0x18, 0x1E, 0x29, 0x33, 0x55, 0x65])
  | _ => (1, [0])

/-- R97, family by family: the unmatched words are those whose key selects no row. -/
theorem unmatchedWord_ofNat {f r : Nat} (hf : f < 16) (hr : r < 4096) :
    unmatchedWord (BitVec.ofNat 16 (f * 4096 + r)) = !(dispatchKeys f).2.contains (r % (dispatchKeys f).1) := by
  rw [Bool.eq_iff_iff, unmatchedWord_iff]
  interval_cases f <;>
    simp [dispatchKeys, BitVec.toNat_eq, toNat_fieldInstr, toNat_fieldN, toNat_fieldNN, toNat_fieldNNN] <;> omega

/-- How many of a family's 4096 words are unmatched. -/
theorem countP_unmatchedWord_family {f : Nat} (hf : f < 16) :
    ((List.range 4096).countP fun r => unmatchedWord (BitVec.ofNat 16 (f * 4096 + r))) =
      4096 / (dispatchKeys f).1 * ((dispatchKeys f).1 - (dispatchKeys f).2.length) := by
  have hkeys : ∀ f < 16, (dispatchKeys f).2.Nodup ∧ (∀ k ∈ (dispatchKeys f).2, k < (dispatchKeys f).1) ∧
      4096 / (dispatchKeys f).1 * (dispatchKeys f).1 = 4096 := by decide
  obtain ⟨hnodup, hlt, hsize⟩ := hkeys f hf
  rw [← countP_range_not_contains_mod hnodup hlt, hsize]
  exact List.countP_congr fun r hr => by rw [unmatchedWord_ofNat hf (List.mem_range.mp hr)]

/-- R97: 21582 of the 65536 words are unmatched. -/
theorem length_unmatchedWords :
    ((List.range 65536).filter fun n => unmatchedWord (BitVec.ofNat 16 n)).length = 21582 := by
  rw [← List.countP_eq_length_filter, show 65536 = 16 * 4096 from rfl, countP_range_mul,
    List.map_congr_left fun f hf => countP_unmatchedWord_family (List.mem_range.mp hf)]
  decide

end Sys2Proof
end

section
/-!
SUPPORT. The obligations of `30_encoding.md`.
-/

namespace Sys2Proof

/-- Settles O2: the bytes are those of the instruction's word, and the decoder reads every operand back from it. -/
theorem decodeOfEncodeIsIdentity : Obligations.DecodeOfEncodeIsIdentity := by
  intro i rest h
  rw [encode, decode_bytesOfWord, decodeWord_encodeWord h]

/-- Settles O3, family by family in `reads_decodeWord`. -/
theorem encodeOfDecodeIsIdentity : Obligations.EncodeOfDecodeIsIdentity := fun w =>
  ⟨wellFormed_decodeWord w, encodeWord_decodeWord w⟩

/-- Settles O4: the word fits the row of the instruction it selects, no word fits two rows, and R97's words fit none. -/
theorem decoderFollowsOpcodeMap : Obligations.DecoderFollowsOpcodeMap := by
  intro w
  refine ⟨fun r hr => fits_iff_idOf_decodeWord w hr, fun hnop r hr => ?_, fun hnone => ?_⟩
  · exact fits_eq_false_of_unmatchedWord ((decodeWord_eq_nopUnmatched_iff w).mp hnop) hr
  · rcases unmatched_or_exists_row w with hnop | ⟨r, hr, hid⟩
    · exact hnop
    · exact absurd (fits_of_id_eq hr hid) (Bool.eq_false_iff.mp (hnone r hr))

/-- Settles O5: the words by the decoder's families, their number by counting each family's keys. -/
theorem unmatchedWordsAreListed : Obligations.UnmatchedWordsAreListed :=
  ⟨decodeWord_eq_nopUnmatched_iff, length_unmatchedWords⟩

/-- Settles O1: nine closed words, evaluated. -/
theorem sampleWordsDecode : Obligations.SampleWordsDecode := by
  unfold Obligations.SampleWordsDecode
  decide

end Sys2Proof
end

section
/-!
SUPPORT. What an instruction does to `I`, the timers, memory, the display plane, the free values and the outputs, and
what the kinds of effect leave of the rest of the state (rule R125).
-/

namespace Sys2Proof.Machine

open Sys2Proof.Claims

/-! ### The part of the state whose writers R125 names one by one -/

/-- What the transfers and the register instructions leave alone. -/
structure Devices where
  /-- `I` (R23). -/
  i : Word
  /-- `DT` (R27). -/
  dt : Byte
  /-- `ST` (R28). -/
  st : Byte
  /-- `MEM` (R60). -/
  mem : Memory
  /-- The display plane (R42). -/
  plane : Plane
  /-- The number of free values taken (log 3, log 4). -/
  draws : Nat
  /-- The outputs so far (log 5). -/
  outputs : List Output

/-- That part of a state. -/
def State.devices (s : State) : Devices := ⟨s.i, s.dt, s.st, s.mem, s.plane, s.draws, s.outputs⟩

@[simp] theorem State.devices_skipIf (s : State) (c : Bool) : (s.skipIf c).devices = s.devices := by cases c <;> rfl

/-- The kinds of effect an instruction has on the devices `d`. -/
inductive DeviceEffect (d : Devices) : Instr → Devices → Prop where
  /-- None. -/
  | none {i : Instr} : DeviceEffect d i d
  /-- `I` moves (R190, R191, R192, R195). -/
  | index {i : Instr} (w : Word)
      (hi : (∃ nnn, i = .ldIndex nnn) ∨ ∃ x, i = .addIndex x ∨ i = .ldFont x ∨ i = .loadRegs x) :
      DeviceEffect d i { d with i := w }
  /-- FX15 (R235). -/
  | delayTimer (x : Nibble) (b : Byte) : DeviceEffect d (.ldDtVx x) { d with dt := b }
  /-- FX18 (R236). -/
  | soundTimer (x : Nibble) (b : Byte) : DeviceEffect d (.ldStVx x) { d with st := b }
  /-- FX33 (R193). -/
  | digits (x : Nibble) (m : Memory) : DeviceEffect d (.bcd x) { d with mem := m }
  /-- FX55 (R194). -/
  | store (x : Nibble) (m : Memory) (w : Word) : DeviceEffect d (.storeRegs x) { d with mem := m, i := w }
  /-- CLS and DRW (R210 to R213). -/
  | display {i : Instr} (p : Plane) (hi : i = .cls ∨ ∃ x y n, i = .drw x y n) :
      DeviceEffect d i { d with plane := p }
  /-- A free value is taken (R172, R230, R231). -/
  | draw {i : Instr} (n : Nat) (hi : (∃ x nn, i = .rnd x nn) ∨ ∃ x, i = .skp x ∨ i = .sknp x) :
      DeviceEffect d i { d with draws := n }
  /-- `Warn` (R124). -/
  | warn (w : Word) (outs : List Output) : DeviceEffect d (.nopUnmatched w) { d with outputs := outs }

/-- R126, R252: a handler fault has no effect on the devices. -/
theorem DeviceEffect.of_handlerFault {i : Instr} {s t : State} {k : FaultKind} {info : Word}
    (h : handlerFault s k info = .next t) : DeviceEffect s.devices i t.devices := by
  cases h
  exact .none

/-- What each instruction does to the devices is of one of these kinds. -/
theorem exec_deviceEffect {i : Instr} {s t : State} (h : exec i s = .next t) :
    DeviceEffect s.devices i t.devices := by
  cases i with
  | jp | jpV0 | ldVxKey => cases h; exact .none
  | ldImm | addImm | ldReg | or | and | xor | addReg | sub | shr | subn | shl | ldVxDt => cases h; exact .none
  | seImm | sneImm | seReg | sneReg =>
    cases h
    rw [State.devices_skipIf]
    exact .none
  | ret =>
    simp only [exec, execRet] at h
    split at h
    · exact .of_handlerFault h
    · next hu => cases h; rw [State.pop_frame hu]; exact .none
  | call nnn =>
    simp only [exec, execCall] at h
    split at h
    · exact .of_handlerFault h
    · next hu => cases h; rw [State.push_frame hu]; exact .none
  | ldIndex nnn => cases h; exact .index _ (.inl ⟨nnn, rfl⟩)
  | addIndex x => cases h; exact .index _ (.inr ⟨x, .inl rfl⟩)
  | ldFont x => cases h; exact .index _ (.inr ⟨x, .inr (.inl rfl)⟩)
  | loadRegs x =>
    simp only [exec, execLoadRegs] at h
    split at h
    · exact .of_handlerFault h
    · cases h; rw [State.setRangeV_eq]; exact .index _ (.inr ⟨x, .inr (.inr rfl)⟩)
  | ldDtVx x => cases h; exact .delayTimer x _
  | ldStVx x => cases h; exact .soundTimer x _
  | bcd x =>
    simp only [exec, execBcd] at h
    split at h
    · exact .of_handlerFault h
    · next hw => cases h; obtain ⟨-, rfl⟩ := State.memWrite_cases hw; exact .digits x _
  | storeRegs x =>
    simp only [exec, execStoreRegs] at h
    split at h
    · exact .of_handlerFault h
    · next hw => cases h; obtain ⟨-, rfl⟩ := State.memWrite_cases hw; exact .store x _ _
  | cls => cases h; exact .display _ (.inl rfl)
  | drw x y n =>
    simp only [exec, execDrw] at h
    split at h
    · exact .of_handlerFault h
    · cases h; exact .display _ (.inr ⟨x, y, n, rfl⟩)
  | rnd x nn => cases h; exact .draw _ (.inl ⟨x, nn, rfl⟩)
  | skp x =>
    simp only [exec, execSkp] at h
    split at h
    · exact .of_handlerFault h
    · cases h; rw [State.devices_skipIf]; exact .draw _ (.inr ⟨x, .inl rfl⟩)
  | sknp x =>
    simp only [exec, execSknp] at h
    split at h
    · exact .of_handlerFault h
    · cases h; rw [State.devices_skipIf]; exact .draw _ (.inr ⟨x, .inr rfl⟩)
  | nopUnmatched w => cases h; exact .warn w _

namespace DeviceEffect

variable {i : Instr} {d e : Devices}

theorem i_eq (h : DeviceEffect d i e) (hnnn : ∀ nnn, i ≠ .ldIndex nnn)
    (hx : ∀ x, i ≠ .addIndex x ∧ i ≠ .ldFont x ∧ i ≠ .storeRegs x ∧ i ≠ .loadRegs x) : e.i = d.i := by
  cases h with
  | index w hi =>
    obtain ⟨nnn, rfl⟩ | ⟨x, rfl | rfl | rfl⟩ := hi
    · exact absurd rfl (hnnn nnn)
    · exact absurd rfl (hx x).1
    · exact absurd rfl (hx x).2.1
    · exact absurd rfl (hx x).2.2.2
  | store x => exact absurd rfl (hx x).2.2.1
  | _ => rfl

theorem dt_eq (h : DeviceEffect d i e) (hx : ∀ x, i ≠ .ldDtVx x) : e.dt = d.dt := by
  cases h with
  | delayTimer x => exact absurd rfl (hx x)
  | _ => rfl

theorem st_eq (h : DeviceEffect d i e) (hx : ∀ x, i ≠ .ldStVx x) : e.st = d.st := by
  cases h with
  | soundTimer x => exact absurd rfl (hx x)
  | _ => rfl

theorem mem_eq (h : DeviceEffect d i e) (hx : ∀ x, i ≠ .bcd x ∧ i ≠ .storeRegs x) : e.mem = d.mem := by
  cases h with
  | digits x => exact absurd rfl (hx x).1
  | store x => exact absurd rfl (hx x).2
  | _ => rfl

theorem plane_eq (h : DeviceEffect d i e) (hcls : i ≠ .cls) (hdrw : ∀ x y n, i ≠ .drw x y n) : e.plane = d.plane := by
  cases h with
  | display p hi =>
    obtain rfl | ⟨x, y, n, rfl⟩ := hi
    · exact absurd rfl hcls
    · exact absurd rfl (hdrw x y n)
  | _ => rfl

theorem draws_eq (h : DeviceEffect d i e) (hrnd : ∀ x nn, i ≠ .rnd x nn) (hx : ∀ x, i ≠ .skp x ∧ i ≠ .sknp x) :
    e.draws = d.draws := by
  cases h with
  | draw n hi =>
    obtain ⟨x, nn, rfl⟩ | ⟨x, rfl | rfl⟩ := hi
    · exact absurd rfl (hrnd x nn)
    · exact absurd rfl (hx x).1
    · exact absurd rfl (hx x).2
  | _ => rfl

theorem outputs_eq (h : DeviceEffect d i e) (hw : ∀ w, i ≠ .nopUnmatched w) : e.outputs = d.outputs := by
  cases h with
  | warn w => exact absurd rfl (hw w)
  | _ => rfl

end DeviceEffect

/-! ### The rest of the state, by the kinds of effect -/

namespace InstrEffect

variable {i : Instr} {s t : State}

/-- R29: the slots are CALL's alone. -/
theorem stk_eq (h : InstrEffect s i t) (hcall : ∀ nnn, i ≠ .call nnn) : t.stk = s.stk := by
  cases h with
  | call nnn => exact absurd rfl (hcall nnn)
  | ret w u hu => rw [State.pop_frame hu]; rfl
  | skip => rw [State.skipIf_stk]
  | data h => rw [h.frame]
  | _ => rfl

/-- R30: `SP` is CALL's and RET's. -/
theorem sp_eq (h : InstrEffect s i t) (hcall : ∀ nnn, i ≠ .call nnn) (hret : i ≠ .ret) : t.sp = s.sp := by
  cases h with
  | call nnn => exact absurd rfl (hcall nnn)
  | ret => exact absurd rfl hret
  | skip => rw [State.sp, State.skipIf_depth]; rfl
  | data h => rw [h.frame]; rfl
  | _ => rfl

/-- R34: `WAIT_REG` is FX0A's. -/
theorem waitReg_eq (h : InstrEffect s i t) (hkey : ∀ x, i ≠ .ldVxKey x) : t.waitReg = s.waitReg := by
  cases h with
  | call nnn u hu => rw [State.push_frame hu]; rfl
  | ret w u hu => rw [State.pop_frame hu]; rfl
  | skip => rw [State.skipIf_waitReg]
  | wait x => exact absurd rfl (hkey x)
  | data h => rw [h.frame]
  | _ => rfl

/-- R33, R127: `RUN` is FX0A's and the faults'. -/
theorem run_eq (h : InstrEffect s i t) (hfault : ¬mayFault i) (hkey : ∀ x, i ≠ .ldVxKey x) : t.run = s.run := by
  cases h with
  | fault k info hi => exact absurd hi hfault
  | call => exact absurd trivial hfault
  | ret => exact absurd trivial hfault
  | skip => rw [State.skipIf_run]
  | wait x => exact absurd rfl (hkey x)
  | data h => rw [h.frame]
  | _ => rfl

/-- R25: `PC` is the transfers' and the skips'. -/
theorem pc_eq (h : InstrEffect s i t) (hmove : ¬mayMovePc i) : t.pc = s.pc := by
  cases h with
  | jump w hi => obtain ⟨nnn, rfl | rfl⟩ := hi <;> exact absurd trivial hmove
  | call => exact absurd trivial hmove
  | ret => exact absurd trivial hmove
  | skip n c hi => obtain ⟨_, _, rfl | rfl⟩ | ⟨_, _, rfl | rfl⟩ | ⟨_, rfl | rfl⟩ := hi <;> exact absurd trivial hmove
  | data h => rw [h.frame]
  | _ => rfl

/-- R35, R252: the fault registers are the faults', which halt the core. -/
theorem faultRegisters_eq (h : InstrEffect s i t) (hnone : ¬mayFault i ∨ t.run ≠ .halted) :
    t.faultCause = s.faultCause ∧ t.faultPc = s.faultPc ∧ t.faultInfo = s.faultInfo := by
  cases h with
  | fault k info hi =>
    rcases hnone with hfault | hrun
    · exact absurd hi hfault
    · exact absurd rfl hrun
  | call nnn u hu => rw [State.push_frame hu]; exact ⟨rfl, rfl, rfl⟩
  | ret w u hu => rw [State.pop_frame hu]; exact ⟨rfl, rfl, rfl⟩
  | skip => simp
  | data h => rw [h.frame]; exact ⟨rfl, rfl, rfl⟩
  | _ => exact ⟨rfl, rfl, rfl⟩

/-- The schedule is no instruction's (log 1). -/
theorem schedule_eq (h : InstrEffect s i t) : t.schedule = s.schedule := by
  cases h with
  | call nnn u hu => rw [State.push_frame hu]; rfl
  | ret w u hu => rw [State.pop_frame hu]; rfl
  | skip => rw [State.skipIf_schedule]
  | data h => rw [h.frame]
  | _ => rfl

/-- R127: outside `WAIT_KEY`, only FX0A's effect is a wait. -/
theorem eq_ldVxKey_of_waitKey (h : InstrEffect s i t) (hs : s.run ≠ .waitKey) (ht : t.run = .waitKey) :
    ∃ x, i = .ldVxKey x ∧ t.waitReg = x := by
  cases h with
  | fault => cases ht
  | jump => exact absurd ht hs
  | call nnn u hu => rw [State.push_frame hu] at ht; exact absurd ht hs
  | ret w u hu => rw [State.pop_frame hu] at ht; exact absurd ht hs
  | skip => rw [State.skipIf_run] at ht; exact absurd ht hs
  | wait x => exact ⟨x, rfl, rfl⟩
  | data h => rw [h.frame] at ht; exact absurd ht hs

end InstrEffect

end Sys2Proof.Machine
end

section
/-!
SUPPORT. The Executor's turn by `RUN`, and which turns stop the model (rules R120 to R128, R252, R274).
-/

namespace Sys2Proof.Machine

/-- R122, R64: with both bytes in memory, the Executor's turn runs the instruction decoded from the word at `PC`. -/
theorem executorTurn_runs {s : State} (hrun : s.run = .running) (hpc : s.pc.toNat ≤ 0xFFE) :
    executorTurn s =
      exec (decodeWord (s.mem.readByte s.pc.toNat ++ s.mem.readByte (s.pc.toNat + 1))) s.advance := by
  simp only [executorTurn, hrun, instructionStep, fetch_ok s hpc]

/-- R121, R253: otherwise it raises the fetch fault, at `PC` itself. -/
theorem executorTurn_fetchFault {s : State} (hrun : s.run = .running) (hpc : 0xFFE < s.pc.toNat) :
    executorTurn s = .next (s.raise .fetchOutOfRange s.pc (if memSize ≤ s.pc.toNat then s.pc else 0x1000)) := by
  simp only [executorTurn, hrun, instructionStep, fetch_error s hpc]

/-- R233, log 2. -/
theorem executorTurn_waiting {s : State} (hrun : s.run = .waitKey) : executorTurn s = .next s := by
  simp only [executorTurn, hrun]

/-- R252, log 2. -/
theorem executorTurn_halted {s : State} (hrun : s.run = .halted) : executorTurn s = .fault (.halted s.faultCause) := by
  simp only [executorTurn, hrun]

/-- R274, R296: a ROM that does not fit is rejected. -/
theorem resetTurn_rejected {rom : List Byte} (s : State) (h : 3584 < rom.length) :
    resetTurn rom s = .fault .romTooLarge := by
  have hlaunch : launch rom = .error .romTooLarge := if_pos h
  simp only [resetTurn, hlaunch]

/-- R290: a ROM that fits is launched. -/
theorem resetTurn_launched {rom : List Byte} (s : State) (h : rom.length ≤ 3584) :
    ∃ t, resetTurn rom s = .next t := by
  have hlaunch : launch rom = .ok { State.reset with mem := loadImage rom } := if_neg (Nat.not_lt.mpr h)
  exact ⟨_, by simp only [resetTurn, hlaunch]; rfl⟩

/-- R93, R128: every instruction has a meaning, a next state, in every state. -/
theorem exec_next (i : Instr) (s : State) : ∃ t, exec i s = .next t := by
  cases i with
  | ret => simp only [exec, execRet]; split <;> exact ⟨_, rfl⟩
  | call => simp only [exec, execCall]; split <;> exact ⟨_, rfl⟩
  | drw => simp only [exec, execDrw]; split <;> exact ⟨_, rfl⟩
  | skp => simp only [exec, execSkp]; split <;> exact ⟨_, rfl⟩
  | sknp => simp only [exec, execSknp]; split <;> exact ⟨_, rfl⟩
  | bcd => simp only [exec, execBcd]; split <;> exact ⟨_, rfl⟩
  | storeRegs => simp only [exec, execStoreRegs]; split <;> exact ⟨_, rfl⟩
  | loadRegs => simp only [exec, execLoadRegs]; split <;> exact ⟨_, rfl⟩
  | _ => exact ⟨_, rfl⟩

/-- R120, R252: the Executor's turn stops the model in `HALTED` alone. -/
theorem executorTurn_next {s : State} (hrun : s.run ≠ .halted) : ∃ t, executorTurn s = .next t := by
  cases hs : s.run with
  | running =>
    by_cases hpc : s.pc.toNat ≤ 0xFFE
    · rw [executorTurn_runs hs hpc]
      exact exec_next _ _
    · exact ⟨_, executorTurn_fetchFault hs (by omega)⟩
  | waitKey => exact ⟨s, executorTurn_waiting hs⟩
  | halted => exact absurd hs hrun

/-- A turn stops the model in one of two ways: the Executor's in `HALTED` (log 2), and a rejected launch (log 20). -/
theorem takeTurn_next_or_stops (a : Turn) (s : State) : (∃ t, takeTurn a s = .next t) ∨
    (s.run = .halted ∧ a = .executor ∧ takeTurn a s = .fault (.halted s.faultCause)) ∨
    ∃ rom, a = .reset rom ∧ 3584 < rom.length ∧ takeTurn a s = .fault .romTooLarge := by
  cases a with
  | executor =>
    by_cases hrun : s.run = .halted
    · exact .inr (.inl ⟨hrun, rfl, executorTurn_halted hrun⟩)
    · exact .inl (executorTurn_next hrun)
  | delayTick => exact .inl ⟨_, rfl⟩
  | soundTick => exact .inl ⟨_, rfl⟩
  | keyEvent k => exact .inl ⟨_, rfl⟩
  | reset rom =>
    by_cases hrom : 3584 < rom.length
    · exact .inr (.inr ⟨rom, rfl, hrom, resetTurn_rejected s hrom⟩)
    · exact .inl (resetTurn_launched s (by omega))

end Sys2Proof.Machine
end

section
/-!
SUPPORT. The obligations of `40_execution_cycle.md`.
-/

namespace Sys2Proof.Machine

open Sys2Proof.Claims

/-- Settles O9: no instruction stops, and a step is one turn, which stops in two ways. -/
theorem onlyHaltOrRejectedRomStops : Obligations.OnlyHaltOrRejectedRomStops := by
  refine ⟨exec_next, fun s => ?_⟩
  cases hs : s.schedule with
  | nil =>
    rw [step_nil s hs]
    by_cases hrun : s.run = .halted
    · exact .inr (.inl ⟨hrun, .inl rfl, executorTurn_halted hrun⟩)
    · exact .inl (executorTurn_next hrun)
  | cons a turns =>
    rw [step_cons s a turns hs]
    rcases takeTurn_next_or_stops a { s with schedule := turns } with
      hnext | ⟨hrun, rfl, hstop⟩ | ⟨rom, rfl, hrom, hstop⟩
    · exact .inl hnext
    · exact .inr (.inl ⟨hrun, .inr rfl, hstop⟩)
    · exact .inr (.inr ⟨rom, rfl, hrom, hstop⟩)

/-- Settles O46: each clause is one field's lemma, about the devices or about the kinds of effect. -/
theorem specialStateFrame : Obligations.SpecialStateFrame := by
  intro i s t h
  have hd := exec_deviceEffect h
  have he := exec_effect h
  exact ⟨hd.i_eq, fun hcall => ⟨he.stk_eq hcall, he.sp_eq hcall⟩, hd.dt_eq, hd.st_eq, hd.plane_eq,
    fun hx a => congrArg (Memory.readByte · a) (hd.mem_eq hx), he.waitReg_eq, hd.outputs_eq, he.pc_eq, he.run_eq,
    he.faultRegisters_eq, hd.draws_eq, he.schedule_eq⟩

/-- Settles O48. -/
theorem onlyKeyWaitSuspends : Obligations.OnlyKeyWaitSuspends := fun _ _ _ hrun h ht =>
  (exec_effect h).eq_ldVxKey_of_waitKey (by simp [hrun]) ht

/-- Settles O51: of the turns' effects, those that need a running Executor, or one not waiting, cannot occur; the key
delivery and the reset end the wait, and the others keep it. -/
theorem onlyKeyEventOrResetEndsWait : Obligations.OnlyKeyEventOrResetEndsWait := by
  intro s t hwait h
  obtain ⟨a, turns, hsched, he⟩ := step_effect h
  have hhead : a ≠ .executor → s.schedule.head? = some a := fun ha => by
    rcases hsched with hcons | ⟨-, hexec, -⟩
    · rw [hcons, List.head?_cons]
    · exact absurd hexec ha
  have hlive : ({ s with schedule := turns } : State).run ≠ .running := by simp [hwait]
  cases he with
  | fetchFault _ hrun => exact absurd hrun hlive
  | instruction _ hrun => exact absurd hrun hlive
  | idle => exact .inr rfl
  | delayTick => exact .inr rfl
  | soundTick => exact .inr rfl
  | keyDelivered k => exact .inl ⟨.inl ⟨k, hhead nofun⟩, rfl⟩
  | keyDropped k hrun => exact absurd hwait hrun
  | reset rom => exact .inl ⟨.inr ⟨rom, hhead nofun⟩, rfl⟩

/-- Settles O6: the schedule and `PC` are the only fields replaced before the instruction runs. -/
theorem stepRunsDecodedInstruction : Obligations.StepRunsDecodedInstruction := by
  intro s turns hrun hpc
  constructor
  · rw [step_cons _ _ turns rfl]
    exact executorTurn_runs (s := { s with schedule := turns }) hrun hpc
  · rw [step_nil _ rfl]
    exact executorTurn_runs (s := { s with schedule := [] }) hrun hpc

/-- Settles O7: past 0xFFE, `PC` is 0xFFF with the next byte offending, or it is past memory itself. -/
theorem fetchOutOfRangeHalts : Obligations.FetchOutOfRangeHalts := by
  intro s turns hrun hpc
  have hinfo : (if memSize ≤ s.pc.toNat then s.pc else 0x1000) = if s.pc = 0xFFF then 0x1000 else s.pc := by
    by_cases hlast : s.pc = 0xFFF
    · rw [hlast]
      rfl
    · have hne : s.pc.toNat ≠ 0xFFF := fun e => hlast (BitVec.eq_of_toNat_eq e)
      rw [if_neg hlast, if_pos (by rw [memSize]; omega)]
  rw [step_cons _ _ turns rfl, ← hinfo]
  exact executorTurn_fetchFault (s := { s with schedule := turns }) hrun hpc

/-- Settles O8. -/
theorem executorDoesNotStepUnlessRunning : Obligations.ExecutorDoesNotStepUnlessRunning := by
  intro s turns
  rw [step_cons _ _ turns rfl]
  exact ⟨fun hrun => executorTurn_waiting (s := { s with schedule := turns }) hrun,
    fun hrun => executorTurn_halted (s := { s with schedule := turns }) hrun⟩

end Sys2Proof.Machine
end

section
/-!
SUPPORT. What the control transfers answer (rules R140 to R149): the stack's two bounds as `SP`, and for each transfer
the state it leaves.
-/

namespace Sys2Proof.Machine

open Sys2Proof.Claims

/-! ### `SP` (R30) -/

theorem State.sp_lt_31_iff (s : State) : s.sp < 31 ↔ s.depth.val < 32 := by
  rw [State.sp]
  omega

theorem State.sp_eq_31_iff (s : State) : s.sp = 31 ↔ s.depth.val = 32 := by
  rw [State.sp]
  omega

theorem State.sp_nonneg_iff (s : State) : 0 ≤ s.sp ↔ 0 < s.depth.val := by
  rw [State.sp]
  omega

theorem State.sp_eq_neg_one_iff (s : State) : s.sp = -1 ↔ s.depth.val = 0 := by
  rw [State.sp]
  omega

/-! ### CALL and RET (R141, R143) -/

theorem exec_call_of_push {s u : State} (nnn : Addr12) (h : s.push s.pc = some u) :
    exec (.call nnn) s = .next (u.setPc (zextNNN nnn)) := by
  simp only [exec, execCall, h]

theorem exec_call_overflow {s : State} (nnn : Addr12) (h : s.depth.val = 32) :
    exec (.call nnn) s = .next (faulted s 3 (s.pc - 2) 0) := by
  simp only [exec, execCall, State.push_none s s.pc h]
  rfl

theorem exec_ret_of_pop {s u : State} {w : Word} (h : s.pop = some (w, u)) : exec .ret s = .next (u.setPc w) := by
  simp only [exec, execRet, h]

theorem exec_ret_underflow {s : State} (h : s.depth.val = 0) :
    exec .ret s = .next (faulted s 4 (s.pc - 2) 0) := by
  simp only [exec, execRet, State.pop_none s h]
  rfl

/-! ### Jumps (R142, R148) and skips (R25) -/

theorem exec_jp (nnn : Addr12) (s : State) : exec (.jp nnn) s = .next (s.setPc (zextNNN nnn)) := rfl

theorem exec_jpV0 (nnn : Addr12) (s : State) :
    exec (.jpV0 nnn) s = .next (s.setPc (zextNNN nnn + zextByte (s.getV 0))) := rfl

theorem toNat_zextNNN (nnn : Addr12) : (zextNNN nnn).toNat = nnn.toNat :=
  BitVec.toNat_setWidth_of_le (by decide)

theorem toNat_zextByte (b : Byte) : (zextByte b).toNat = b.toNat :=
  BitVec.toNat_setWidth_of_le (by decide)

/-- R148: twelve bits plus eight stay below 65536. -/
theorem toNat_zextNNN_add_zextByte (nnn : Addr12) (b : Byte) :
    (zextNNN nnn + zextByte b).toNat = nnn.toNat + b.toNat := by
  have hnnn := nnn.isLt
  have hb := b.isLt
  rw [BitVec.toNat_add, toNat_zextNNN, toNat_zextByte]
  omega

/-- A skip on a Boolean that reflects `p` is a skip on `p`. -/
theorem State.skipIf_eq_ite (s : State) {c : Bool} {p : Prop} [Decidable p] (h : c = true ↔ p) :
    s.skipIf c = if p then { s with pc := s.pc + 2 } else s :=
  if_congr h rfl rfl

end Sys2Proof.Machine
end

section
/-!
SUPPORT. The obligations of `41_control_flow.md`.
-/

namespace Sys2Proof.Machine

open Sys2Proof.Claims

/-- Settles O13: the push writes slot `SP + 1`, which is slot number `depth`. -/
theorem callPushesReturnAddress : Obligations.CallPushesReturnAddress := by
  intro nnn s
  constructor
  · intro hsp
    have hdepth := s.sp_lt_31_iff.mp hsp
    refine ⟨_, exec_call_of_push nnn (State.push_some s s.pc hdepth), ?_, fun j => ?_, rfl, rfl⟩
    · simp only [State.sp, State.setPc_depth]
      omega
    · have hslot : (j.val : Int) = s.sp + 1 ↔ s.depth.val = j.val := by
        rw [State.sp]
        omega
      simp only [State.setPc_stk, Fin.getElem_fin, Vector.getElem_set, hslot]
  · exact fun hsp => exec_call_overflow nnn (s.sp_eq_31_iff.mp hsp)

/-- Settles O14: the slot popped, number `depth - 1`, is slot `SP`. -/
theorem returnPopsIntoPc : Obligations.ReturnPopsIntoPc := by
  intro s
  constructor
  · intro hsp
    have hdepth := s.sp_nonneg_iff.mp hsp
    refine ⟨_, exec_ret_of_pop (State.pop_some s hdepth), ?_, fun j hj => ?_, rfl⟩
    · simp only [State.sp, State.setPc_depth]
      omega
    · have hslot : s.depth.val - 1 = j.val := by
        rw [State.sp] at hj
        omega
      simp only [State.setPc_pc, Fin.getElem_fin, hslot]
  · exact fun hsp => exec_ret_underflow (s.sp_eq_neg_one_iff.mp hsp)

/-- Settles O15: the RET pops what the CALL pushed, by `State.push_then_pop`. -/
theorem callThenReturnRoundTrip : Obligations.CallThenReturnRoundTrip := by
  intro nnn s t u hsp hcall hdepth hstk
  obtain ⟨s1, hpush, -, -, hpop⟩ := State.push_then_pop s s.pc (s.sp_lt_31_iff.mp hsp)
  rw [exec_call_of_push nnn hpush] at hcall
  cases hcall
  have hret : u.pop = some (s.pc, { u with depth := s.depth }) :=
    hpop u hdepth fun j _ => by rw [hstk, State.setPc_stk]
  exact ⟨_, exec_ret_of_pop hret, rfl, rfl, rfl⟩

/-- Settles O11: the step runs the jump, which puts `PC` back from its advanced value. -/
theorem jumpToSelfChangesNothing : Obligations.JumpToSelfChangesNothing := by
  intro s nnn hrun hschedule hpc hrange hword
  have hjump : decodeWord (encodeWord (.jp nnn)) = .jp nnn := decodeWord_encodeWord rfl
  have hback : zextNNN nnn = s.pc := hpc.symm
  rw [step_nil s hschedule, executorTurn_runs hrun hrange, hword, hjump, exec_jp, hback]
  rfl

/-- Settles O12. -/
theorem jumpTargets : Obligations.JumpTargets := fun nnn s =>
  ⟨⟨_, exec_jp nnn s, toNat_zextNNN nnn, rfl⟩, _, exec_jpV0 nnn s, toNat_zextNNN_add_zextByte nnn (s.getV 0), rfl⟩

/-- Settles O17: each of the four is `State.skipIf` of its own comparison. -/
theorem compareAndSkip : Obligations.CompareAndSkip := fun _ _ _ s =>
  ⟨congrArg Host.Outcome.next (s.skipIf_eq_ite beq_iff_eq), congrArg Host.Outcome.next (s.skipIf_eq_ite bne_iff_ne),
    congrArg Host.Outcome.next (s.skipIf_eq_ite beq_iff_eq), congrArg Host.Outcome.next (s.skipIf_eq_ite bne_iff_ne)⟩

end Sys2Proof.Machine
end

section
/-!
SUPPORT. What the loads, the logic instructions, the flag writers and RND leave in the register file (rules R160 to
R174). Each flag writer writes VF and then its result, so the registers it leaves are said once for all of them.
-/

namespace Sys2Proof.Machine

open Sys2Proof.Claims

/-! ### Flag values (R26) -/

theorem flagByte_decide (p : Prop) [Decidable p] : flagByte (decide p) = bit p := by
  simp only [flagByte, bit, decide_eq_true_eq]

theorem flagByte_carryFlag (a b : Byte) : flagByte (carryFlag a b) = bit (255 < a.toNat + b.toNat) := flagByte_decide _

theorem flagByte_greaterFlag (a b : Byte) : flagByte (greaterFlag a b) = bit (b < a) := flagByte_decide _

theorem toNat_flagByte (c : Bool) : (flagByte c).toNat = c.toNat := by cases c <;> rfl

theorem toNat_flagByte_lowBit (b : Byte) : (flagByte (lowBit b)).toNat = b.toNat % 2 := by
  rw [toNat_flagByte, lowBit, BitVec.getLsbD, Nat.toNat_testBit, Nat.pow_zero, Nat.div_one]

theorem toNat_flagByte_highBit (b : Byte) : (flagByte (highBit b)).toNat = b.toNat / 128 := by
  have hb := b.isLt
  rw [toNat_flagByte, highBit, BitVec.getLsbD, Nat.toNat_testBit]
  omega

theorem flagByte_ushiftRight_one (c : Bool) : flagByte c >>> 1 = 0 := by cases c <;> rfl

/-! ### Shifts by one (R173) and the mask of RND (R172) -/

theorem toNat_ushiftRight_one (b : Byte) : (b >>> 1).toNat = b.toNat / 2 := by
  rw [BitVec.toNat_ushiftRight, Nat.shiftRight_eq_div_pow, Nat.pow_one]

theorem toNat_shiftLeft_one (b : Byte) : (b <<< 1).toNat = 2 * b.toNat % 256 := by
  rw [BitVec.toNat_shiftLeft, Nat.shiftLeft_eq, Nat.pow_one, Nat.mul_comm]

/-- The values inside a mask are the ones masking gives. -/
theorem and_not_eq_zero_iff_exists_and {w : Nat} (b mask : BitVec w) : b &&& ~~~mask = 0 ↔ ∃ d, d &&& mask = b := by
  constructor
  · intro h
    refine ⟨b, BitVec.eq_of_getLsbD_eq fun i hi => ?_⟩
    have hbit := congrArg (BitVec.getLsbD · i) h
    simpa [hi] using hbit
  · rintro ⟨d, rfl⟩
    rw [BitVec.and_assoc, BitVec.and_not_self]
    exact BitVec.and_zero

/-! ### One register written (R161 to R166) -/

theorem writesRegister_setV (s : State) (x : Nibble) (b : Byte) : WritesRegister s (s.setV x b) x b :=
  ⟨s.getV_setV_self x b, fun r hr => by rw [State.getV_setV, if_neg hr], rfl⟩

/-! ### VF, then the result (R160) -/

/-- The flag is written to VF and after it the result to `V[x]`, the two writes of every flag writer. -/
def State.setFlagThenV (s : State) (x : Nibble) (f : Bool) (b : Byte) : State := (s.setFlag f).setV x b

/-- `V[x] - V[y]` with both registers read after the flag is written, as SUB and SUBN compute it (R168, R170). -/
def State.setFlagThenSub (s : State) (x y : Nibble) (f : Bool) : State :=
  s.setFlagThenV x f ((s.setFlag f).getV x - (s.setFlag f).getV y)

section

variable (s : State) {x y r : Nibble} (f : Bool) (b : Byte)

theorem State.getV_setFlag_vf : (s.setFlag f).getV 15 = flagByte f := s.getV_setV_self vf (flagByte f)

theorem State.getV_setFlag_of_ne (hr : r ≠ 15) : (s.setFlag f).getV r = s.getV r := by
  rw [State.getV_setFlag, if_neg hr]

theorem State.getV_setFlagThenV_self : (s.setFlagThenV x f b).getV x = b := State.getV_setV_self _ x b

theorem State.getV_setFlagThenV_vf (hx : x ≠ 15) : (s.setFlagThenV x f b).getV 15 = flagByte f := by
  rw [State.setFlagThenV, State.getV_setV, if_neg hx.symm, State.getV_setFlag_vf]

theorem State.getV_setFlagThenV_of_ne (hrx : r ≠ x) (hr : r ≠ 15) : (s.setFlagThenV x f b).getV r = s.getV r := by
  rw [State.setFlagThenV, State.getV_setV, if_neg hrx, State.getV_setFlag_of_ne s f hr]

/-- What SUB and SUBN leave, in the four cases of `x`, `y` being 15 (D6): the flag, here `g`, compares the registers as
they were before, the difference is of the registers after the flag write. -/
theorem State.setFlagThenSub_cases {g : Byte → Byte → Byte} (hf : flagByte f = g (s.getV x) (s.getV y)) :
    (x ≠ 15 → y ≠ 15 → (s.setFlagThenSub x y f).getV x = s.getV x - s.getV y ∧
      (s.setFlagThenSub x y f).getV 15 = g (s.getV x) (s.getV y)) ∧
    (x ≠ 15 → y = 15 → (s.setFlagThenSub x y f).getV x = s.getV x - g (s.getV x) (s.getV 15) ∧
      (s.setFlagThenSub x y f).getV 15 = g (s.getV x) (s.getV 15)) ∧
    (x = 15 → y ≠ 15 → (s.setFlagThenSub x y f).getV 15 = g (s.getV 15) (s.getV y) - s.getV y) ∧
    (x = 15 → y = 15 → (s.setFlagThenSub x y f).getV 15 = 0) ∧
    ∀ r, r ≠ x → r ≠ 15 → (s.setFlagThenSub x y f).getV r = s.getV r := by
  have hresult : (s.setFlagThenSub x y f).getV x = (s.setFlag f).getV x - (s.setFlag f).getV y :=
    s.getV_setFlagThenV_self f _
  have hflag (hx : x ≠ 15) : (s.setFlagThenSub x y f).getV 15 = flagByte f := s.getV_setFlagThenV_vf f _ hx
  refine ⟨fun hx hy => ?_, fun hx hy => ?_, fun hx hy => ?_, fun hx hy => ?_, fun r => s.getV_setFlagThenV_of_ne f _⟩
  · rw [hresult, s.getV_setFlag_of_ne f hx, s.getV_setFlag_of_ne f hy, hflag hx, hf]
    exact ⟨rfl, rfl⟩
  · subst hy
    rw [hresult, s.getV_setFlag_of_ne f hx, s.getV_setFlag_vf, hflag hx, hf]
    exact ⟨rfl, rfl⟩
  · subst hx
    rw [hresult, s.getV_setFlag_vf, s.getV_setFlag_of_ne f hy, hf]
  · subst hx hy
    exact hresult.trans (BitVec.sub_self _)

end

/-! ### The instructions -/

theorem exec_addReg (x y : Nibble) (s : State) : exec (.addReg x y) s =
    .next (s.setFlagThenV x (carryFlag (s.getV x) (s.getV y)) (s.getV x + s.getV y)) := rfl

theorem exec_sub (x y : Nibble) (s : State) : exec (.sub x y) s =
    .next (s.setFlagThenSub x y (greaterFlag (s.getV x) (s.getV y))) := rfl

theorem exec_subn (x y : Nibble) (s : State) : exec (.subn x y) s =
    .next (s.setFlagThenSub x y (greaterFlag (s.getV y) (s.getV x))) := rfl

theorem exec_shr (x y : Nibble) (s : State) : exec (.shr x y) s =
    .next (s.setFlagThenV x (lowBit (s.getV x)) ((s.setFlag (lowBit (s.getV x))).getV x >>> 1)) := rfl

/-- The state after the copy of `V[y]`, which SHL shifts in place (R171). -/
theorem exec_shl {x y : Nibble} {s u : State} (hu : s.setV x (s.getV y) = u) : exec (.shl x y) s =
    .next (u.setFlagThenV x (highBit (s.getV y)) ((u.setFlag (highBit (s.getV y))).getV x <<< 1)) := by
  have hcopy : u.getV x = s.getV y := by rw [← hu, State.getV_setV_self]
  rw [← hcopy, ← hu]
  rfl

theorem exec_rnd (x : Nibble) (nn : Byte) (s : State) :
    exec (.rnd x nn) s = .next (s.draw.setV x (Config.randByte s.draws &&& nn)) := rfl

end Sys2Proof.Machine
end

section
/-!
SUPPORT. The obligations of `42_alu.md`.
-/

namespace Sys2Proof.Machine

open Sys2Proof.Claims

/-- Settles O19. -/
theorem addRegisterCarry : Obligations.AddRegisterCarry := by
  intro x y s
  refine ⟨_, exec_addReg x y s, rfl, ?_, fun hx => ?_, fun r => s.getV_setFlagThenV_of_ne _ _⟩
  · rw [State.getV_setFlagThenV_self, BitVec.toNat_add]
  · rw [s.getV_setFlagThenV_vf _ _ hx, flagByte_carryFlag]

/-- Settles O20: SUB's flag is the strict compare of `V[X]` with `V[Y]`. -/
theorem subtractBorrow : Obligations.SubtractBorrow := fun x y s =>
  ⟨_, exec_sub x y s, rfl, s.setFlagThenSub_cases _ (g := fun vx vy => bit (vy < vx)) (flagByte_greaterFlag _ _)⟩

/-- Settles O22: SUBN is SUB with the flag's compare reversed. -/
theorem subtractReversedFlag : Obligations.SubtractReversedFlag := fun x y s =>
  ⟨_, exec_subn x y s, rfl, s.setFlagThenSub_cases _ (g := fun vx vy => bit (vx < vy)) (flagByte_greaterFlag _ _)⟩

/-- Settles O21: with `X = 15` the flag just written is what is shifted. -/
theorem shiftRightInPlace : Obligations.ShiftRightInPlace := by
  intro x y s
  refine ⟨_, exec_shr x y s, rfl, fun hx => ⟨?_, ?_⟩, ?_, fun r => s.getV_setFlagThenV_of_ne _ _,
    fun y' => exec_shr x y' s⟩
  · rw [State.getV_setFlagThenV_self, s.getV_setFlag_of_ne _ hx, toNat_ushiftRight_one]
  · rw [s.getV_setFlagThenV_vf _ _ hx, toNat_flagByte_lowBit]
  · rintro rfl
    rw [State.getV_setFlagThenV_self, State.getV_setFlag_vf, flagByte_ushiftRight_one]

/-- Settles O23: with `X = 15` the flag just written is what is shifted. -/
theorem shiftLeftCopiesSource : Obligations.ShiftLeftCopiesSource := by
  intro x y s
  obtain ⟨hcopy, hother, -⟩ := writesRegister_setV s x (s.getV y)
  refine ⟨_, exec_shl rfl, rfl, fun hx => ⟨?_, ?_⟩, ?_, fun r hrx hr => ?_⟩
  · rw [State.getV_setFlagThenV_self, State.getV_setFlag_of_ne _ _ hx, hcopy, toNat_shiftLeft_one]
  · rw [State.getV_setFlagThenV_vf _ _ _ hx, toNat_flagByte_highBit]
  · rintro rfl
    have hy := (s.getV y).isLt
    rw [State.getV_setFlagThenV_self, State.getV_setFlag_vf, toNat_shiftLeft_one, toNat_flagByte_highBit]
    omega
  · rw [State.getV_setFlagThenV_of_ne _ _ _ hrx hr, hother r hrx]

/-- Settles O24: the draw counter moves and `V[X]` is written, whatever the byte drawn. -/
theorem randomByteUnderMask : Obligations.RandomByteUnderMask := by
  intro x nn s
  obtain ⟨hresult, hother, -⟩ := writesRegister_setV s.draw x (Config.randByte s.draws &&& nn)
  have hinside := (and_not_eq_zero_iff_exists_and _ nn).mpr ⟨_, hresult.symm⟩
  exact ⟨⟨_, exec_rnd x nn s, hresult, hinside, hother, rfl⟩, fun b => and_not_eq_zero_iff_exists_and b nn⟩

/-- Settles O18: each of the six is one `State.setV`. -/
theorem loadsAndLogicWriteOneRegister : Obligations.LoadsAndLogicWriteOneRegister := by
  intro x y nn s
  have hsum : BitVec.ofNat 8 (((s.getV x).toNat + nn.toNat) % 256) = s.getV x + nn := by
    rw [← BitVec.toNat_add, BitVec.ofNat_toNat, BitVec.setWidth_eq]
  have hwrite (b : Byte) : ∃ t, (.next (s.setV x b) : Result) = .next t ∧ WritesRegister s t x b :=
    ⟨_, rfl, writesRegister_setV s x b⟩
  exact ⟨hwrite _, hsum ▸ hwrite _, hwrite _, hwrite _, hwrite _, hwrite _⟩

end Sys2Proof.Machine
end

section
/-!
SUPPORT. What the index and memory instructions answer (rules R190 to R195): the bytes a run of writes leaves, and for
each instruction the state it leaves, inside memory and past it.
-/

namespace Sys2Proof.Machine

open Sys2Proof.Claims

/-! ### Runs of writes (R67) -/

/-- Inside the range a run of writes leaves the byte of that place in the run. -/
theorem Memory.readByte_writeBytes_inside {m : Memory} (hm : m.wf) {a k : Nat} {bytes : List Byte}
    (ha : a + bytes.length ≤ memSize) (hk : k < bytes.length) :
    (m.writeBytes a bytes).readByte (a + k) = bytes[k] := by
  have hin : a ≤ a + k ∧ a + k < a + bytes.length := by omega
  simp only [Memory.readByte_writeBytes hm a bytes ha, dif_pos hin, Nat.add_sub_cancel_left]

/-- Outside the range a run of writes leaves every byte. -/
theorem Memory.readByte_writeBytes_outside {m : Memory} (hm : m.wf) {a a' : Nat} {bytes : List Byte}
    (ha : a + bytes.length ≤ memSize) (hout : a' < a ∨ a + bytes.length ≤ a') :
    (m.writeBytes a bytes).readByte a' = m.readByte a' := by
  rw [Memory.readByte_writeBytes hm a bytes ha, dif_neg (by omega)]

/-! ### Accesses at `I` that end past memory (R68, R254) -/

/-- `I + k`, the last address, is past memory. -/
theorem State.memWrite_pastMemory (s : State) {bytes : List Byte} {k : Nat} (hlen : bytes.length = k + 1)
    (h : 0xFFF < s.i.toNat + k) : s.memWrite s.i bytes = .error (offending s.i) :=
  State.memWrite_error s s.i bytes (by omega) (by rw [memSize]; omega)

/-- `I + k`, the last address, is past memory. -/
theorem State.memRead_pastMemory (s : State) {k : Nat} (h : 0xFFF < s.i.toNat + k) :
    s.memRead s.i (k + 1) = .error (offending s.i) :=
  State.memRead_error s s.i (k + 1) (by omega) (by rw [memSize]; omega)

/-- R251, R252: the fault of such an access carries cause 2 and the lowest offending address. -/
theorem handlerFault_memOutOfRange (s : State) :
    handlerFault s .memOutOfRange (offending s.i) = .next (faulted s 2 (s.pc - 2) (offending s.i)) := rfl

/-! ### LD_INDEX, ADD_INDEX and LD_FONT (R190 to R192) -/

theorem exec_ldIndex (nnn : Addr12) (s : State) : exec (.ldIndex nnn) s = .next (s.setI (zextNNN nnn)) := rfl

theorem exec_addIndex (x : Nibble) (s : State) :
    exec (.addIndex x) s = .next (s.setI (s.i + zextByte (s.getV x))) := rfl

theorem exec_ldFont (x : Nibble) (s : State) : exec (.ldFont x) s = .next (s.setI (fontAddress (s.getV x))) := rfl

theorem toNat_and_0xF (b : Byte) : (b &&& 0xF).toNat = b.toNat % 16 :=
  (BitVec.toNat_and b 0xF).trans (Nat.and_two_pow_sub_one_eq_mod b.toNat 4)

/-- R192: neither the product nor the sum wraps. -/
theorem toNat_fontAddress (b : Byte) : (fontAddress b).toNat = 0x50 + 5 * (b.toNat % 16) := by
  have hdigit : ((b &&& 0xF).setWidth 16).toNat = b.toNat % 16 := by
    rw [BitVec.toNat_setWidth_of_le (by decide), toNat_and_0xF]
  have hbase : config.fontBase.toNat = 0x50 := rfl
  have hfive : (5 : Word).toNat = 5 := rfl
  rw [fontAddress, BitVec.toNat_add, BitVec.toNat_mul, hdigit, hbase, hfive]
  omega

/-- R298: in the memory of reset each digit's five font bytes stand at its glyph address. -/
theorem readBytes_reset_glyph : ∀ d < 16,
    State.reset.mem.readBytes (0x50 + 5 * d) 5 = (Config.defaultFont.drop (5 * d)).take 5 := by decide

/-! ### BCD (R193) -/

theorem length_bcdDigits (b : Byte) : (bcdDigits b).length = 3 := rfl

theorem State.bcdDigits_fits {s : State} (b : Byte) (h : s.i.toNat + 2 ≤ 0xFFF) :
    s.i.toNat + (bcdDigits b).length ≤ memSize := by
  rw [length_bcdDigits, memSize]
  omega

theorem exec_bcd_ok (s : State) (x : Nibble) (h : s.i.toNat + 2 ≤ 0xFFF) :
    exec (.bcd x) s = .next { s with mem := s.mem.writeBytes s.i.toNat (bcdDigits (s.getV x)) } := by
  simp only [exec, execBcd, State.memWrite_ok s s.i _ (.inr (State.bcdDigits_fits _ h))]

theorem exec_bcd_fault (s : State) (x : Nibble) (h : 0xFFF < s.i.toNat + 2) :
    exec (.bcd x) s = .next (faulted s 2 (s.pc - 2) (offending s.i)) := by
  simp only [exec, execBcd, s.memWrite_pastMemory (length_bcdDigits _) h, handlerFault_memOutOfRange]

/-- The three bytes BCD stores are decimal digits, the highest at most 2, and spell the register's value. -/
theorem bcdDigits_spell (b : Byte) :
    (b / 100).toNat * 100 + (b / 10 % 10).toNat * 10 + (b % 10).toNat = b.toNat ∧
      (b / 100).toNat ≤ 2 ∧ (b / 10 % 10).toNat ≤ 9 ∧ (b % 10).toNat ≤ 9 := by
  have hb := b.isLt
  have hten : (10 : Byte).toNat = 10 := rfl
  have hhundred : (100 : Byte).toNat = 100 := rfl
  simp only [BitVec.toNat_udiv, BitVec.toNat_umod, hten, hhundred]
  omega

/-! ### STORE_REGS and LOAD_REGS (R194, R195) -/

theorem exec_storeRegs_fault (s : State) (x : Nibble) (h : 0xFFF < s.i.toNat + x.toNat) :
    exec (.storeRegs x) s = .next (faulted s 2 (s.pc - 2) (offending s.i)) := by
  simp only [exec, execStoreRegs, s.memWrite_pastMemory (s.length_rangeV x) h, handlerFault_memOutOfRange]

theorem exec_loadRegs_ok (s : State) (x : Nibble) (h : s.i.toNat + x.toNat ≤ 0xFFF) :
    exec (.loadRegs x) s =
      .next ((s.setRangeV 0 (s.mem.readBytes s.i.toNat (rangeCount x))).setI (s.pastRange x)) := by
  have hfits : s.i.toNat + rangeCount x ≤ memSize := by
    rw [rangeCount, memSize]
    omega
  simp only [exec, execLoadRegs, State.memRead_ok s s.i _ (.inr hfits)]

theorem exec_loadRegs_fault (s : State) (x : Nibble) (h : 0xFFF < s.i.toNat + x.toNat) :
    exec (.loadRegs x) s = .next (faulted s 2 (s.pc - 2) (offending s.i)) := by
  simp only [exec, execLoadRegs, rangeCount, s.memRead_pastMemory h, handlerFault_memOutOfRange]

/-- `I` moved past a block inside memory does not wrap: it is at most 0x1000. -/
theorem State.toNat_pastRange (s : State) (x : Nibble) (h : s.i.toNat + x.toNat ≤ 0xFFF) :
    (s.pastRange x).toNat = s.i.toNat + x.toNat + 1 := by
  rw [State.pastRange, rangeCount, BitVec.toNat_add, BitVec.toNat_ofNat]
  omega

/-- The registers LOAD_REGS leaves: up to `V[X]` the bytes of memory, above it what they were. -/
theorem State.getV_setRangeV_readBytes (s : State) (x r : Nibble) (a : Nat) :
    (s.setRangeV 0 (s.mem.readBytes a (rangeCount x))).getV r =
      if r.toNat ≤ x.toNat then s.mem.readByte (a + r.toNat) else s.getV r := by
  have hlen : (s.mem.readBytes a (rangeCount x)).length = x.toNat + 1 := Memory.length_readBytes _ _ _
  have hx := x.isLt
  rw [State.getV_setRangeV _ _ _ (by omega)]
  by_cases hr : r.toNat ≤ x.toNat
  · rw [dif_pos (by omega), if_pos hr, Memory.getElem_readBytes, Nat.sub_zero]
  · rw [dif_neg (by omega), if_neg hr]

end Sys2Proof.Machine
end

section
/-!
SUPPORT. The obligations of `43_index_memory.md`.
-/

namespace Sys2Proof.Machine

open Sys2Proof.Claims

/-- Settles O27: the low nibble is one of the sixteen digits of `readBytes_reset_glyph`. -/
theorem fontAddressOfDigit : Obligations.FontAddressOfDigit := by
  intro x s
  have hdigit : (s.getV x).toNat % 16 < 16 := Nat.mod_lt _ (by decide)
  refine ⟨_, exec_ldFont x s, toNat_fontAddress _, rfl, ?_, ?_⟩
  · rw [State.setI_i, toNat_fontAddress]
    omega
  · rw [State.setI_i, toNat_fontAddress]
    exact readBytes_reset_glyph _ hdigit

/-- Settles O28: inside memory the three digits are one run of writes at `I`. -/
theorem bcdStoresDecimalDigits : Obligations.BcdStoresDecimalDigits := by
  intro x s hm
  refine ⟨fun h => ?_, exec_bcd_fault s x⟩
  have hfits := State.bcdDigits_fits (s.getV x) h
  have hlen := length_bcdDigits (s.getV x)
  have hdigit (k : Nat) (hk : k < 3) := Memory.readByte_writeBytes_inside hm hfits (k := k) (by omega)
  refine ⟨_, exec_bcd_ok s x h, ?_, fun a ha => ?_, rfl⟩
  · have hhundreds := hdigit 0 (by decide)
    have htens := hdigit 1 (by decide)
    have hones := hdigit 2 (by decide)
    rw [Nat.add_zero] at hhundreds
    simp only [hhundreds, htens, hones]
    exact bcdDigits_spell (s.getV x)
  · exact Memory.readByte_writeBytes_outside hm hfits ha

/-- Settles O29: inside memory `V[0]` to `V[X]` are one run of writes at `I`. -/
theorem storeRegistersAtIndex : Obligations.StoreRegistersAtIndex := by
  intro x s hm
  refine ⟨fun h => ?_, exec_storeRegs_fault s x⟩
  have hexec := exec_storeRegs_ok s h
  refine ⟨_, hexec, readByte_storeRegs hm h hexec, fun a ha => ?_, s.toNat_pastRange x h, rfl⟩
  rw [State.setI_mem, Memory.readByte_writeBytes_outside hm (State.rangeV_fits h)]
  rw [State.length_rangeV]
  omega

/-- Settles O30. -/
theorem loadRegistersFromIndex : Obligations.LoadRegistersFromIndex := by
  intro x s
  refine ⟨fun h => ⟨_, exec_loadRegs_ok s x h, fun r => ?_, s.toNat_pastRange x h, ?_⟩, exec_loadRegs_fault s x⟩
  · rw [State.getV_setI, State.getV_setRangeV_readBytes]
  · rw [State.setRangeV_eq]
    rfl

/-- Settles O31: the load reads the bytes the store left, and both move `I` by the same amount. -/
theorem storeThenLoadRestoresRegisters : Obligations.StoreThenLoadRestoresRegisters := by
  intro x s t v hm h hstore
  obtain ⟨hload, -⟩ := loadRegistersFromIndex x { t with i := s.i, v := v }
  obtain ⟨u, hu, hregs, hui, -⟩ := hload h
  refine ⟨u, hu, ?_, fun r hr => ?_⟩
  · have hti : t.i = s.pastRange x := by
      rw [exec_storeRegs_ok s h] at hstore
      cases hstore
      rfl
    exact BitVec.eq_of_toNat_eq (by rw [hui, hti, s.toNat_pastRange x h])
  · rw [hregs r, if_pos hr]
    exact readByte_storeRegs hm h hstore r hr

/-- Settles O25. -/
theorem indexLoadsImmediate : Obligations.IndexLoadsImmediate := fun nnn s =>
  ⟨_, exec_ldIndex nnn s, toNat_zextNNN nnn, rfl⟩

/-- Settles O26: the 16-bit sum wraps at 65536 by itself. -/
theorem indexAddWrapsAt65536 : Obligations.IndexAddWrapsAt65536 := by
  intro x s
  refine ⟨_, exec_addIndex x s, ?_, rfl⟩
  rw [State.setI_i, BitVec.toNat_add, toNat_zextByte]

end Sys2Proof.Machine
end

section
/-!
SUPPORT. What CLS and DRW answer (rules R210 to R213): for DRW the state it leaves with every surviving row in memory,
the fault with one past it, and the sprite drawn read pixel by pixel.
-/

namespace Sys2Proof.Machine

open Sys2Proof.Claims

theorem exec_cls (s : State) : exec .cls s = .next (s.setPlane dispClear) := rfl

/-! ### Values of VF -/

theorem bit_congr {p q : Prop} [Decidable p] [Decidable q] (h : p ↔ q) : bit p = bit q := if_congr h rfl rfl

theorem flagByte_eq_bit {f : Bool} {p : Prop} [Decidable p] (h : f = true ↔ p) : flagByte f = bit p :=
  if_congr h rfl rfl

section

variable (s : State) (x y n : Nibble)

/-! ### The sprite's bytes (R211, R212) -/

/-- The bytes of the rows DRW reads and draws, the clipped ones left out (R212, D13). -/
def State.spriteBytes : List Byte := s.mem.readBytes s.i.toNat (spriteRows n (anchorRow (s.getV y)))

/-- The plane with the sprite drawn, and whether a lit pixel was turned off (R213). -/
def State.drawnSprite : Plane × Bool :=
  drawRows (anchorCol (s.getV x)) (anchorRow (s.getV y)) (s.spriteBytes y n) (s.plane, false)

theorem State.length_spriteBytes : (s.spriteBytes y n).length = spriteRows n (anchorRow (s.getV y)) :=
  Memory.length_readBytes _ _ _

/-- A row of the plane is drawn exactly when the unclipped sprite reaches it: clipping leaves out rows past 31 only. -/
theorem State.row_drawn_iff (r : Fin 32) :
    (anchorRow (s.getV y) ≤ r.val ∧ r.val < anchorRow (s.getV y) + (s.spriteBytes y n).length) ↔
      (anchorRow (s.getV y) ≤ r.val ∧ r.val < anchorRow (s.getV y) + n.toNat) := by
  rw [State.length_spriteBytes, spriteRows]
  omega

theorem State.getD_spriteBytes {k : Nat} (hk : k < (s.spriteBytes y n).length) :
    (s.spriteBytes y n).getD k 0 = s.mem.readByte (s.i.toNat + k) :=
  (List.getD_eq_getElem _ _ hk).trans (Memory.getElem_readBytes _ _ _ k hk)

/-- `spriteBit` is the bit that drawing takes from the bytes read. -/
theorem spriteBit_eq (c : Fin 64) (r : Fin 32) : spriteBit s x y n c r =
    (decide (anchorRow (s.getV y) ≤ r.val ∧ r.val < anchorRow (s.getV y) + (s.spriteBytes y n).length) &&
      decide (anchorCol (s.getV x) ≤ c.val ∧ c.val < anchorCol (s.getV x) + 8) &&
      ((s.spriteBytes y n).getD (r.val - anchorRow (s.getV y)) 0).getLsbD (7 - (c.val - anchorCol (s.getV x)))) := by
  have hrows := s.row_drawn_iff y n r
  by_cases hr : anchorRow (s.getV y) ≤ r.val ∧ r.val < anchorRow (s.getV y) + (s.spriteBytes y n).length
  · have hbyte := s.getD_spriteBytes y n (k := r.val - anchorRow (s.getV y)) (by omega)
    rw [hbyte, decide_eq_true hr, Bool.true_and]
    simp only [anchorRow] at hr hrows
    simp only [spriteBit, decide_eq_true (hrows.mp hr), Bool.and_true]
    rfl
  · rw [decide_eq_false hr, Bool.false_and, Bool.false_and]
    simp only [anchorRow] at hr hrows
    simp only [spriteBit, decide_eq_false (mt hrows.mpr hr), Bool.and_false, Bool.false_and]

/-! ### The drawn sprite (R213) -/

theorem State.dispIsSet_drawnSprite (c : Fin 64) (r : Fin 32) :
    dispIsSet (s.drawnSprite x y n).1 c r = (dispIsSet s.plane c r ^^ spriteBit s x y n c r) := by
  rw [spriteBit_eq]
  exact (drawRows_spec _ _ _ (s.plane, false)).1 c r

/-- The collision flag: a set bit of the sprite met a lit pixel. -/
theorem State.drawnSprite_collides_iff :
    (s.drawnSprite x y n).2 = true ↔ ∃ c r, spriteBit s x y n c r = true ∧ dispIsSet s.plane c r = true := by
  rw [State.drawnSprite, (drawRows_spec _ _ _ (s.plane, false)).2]
  simp only [Bool.false_eq_true, false_or, spriteBit_eq, Bool.and_eq_true, decide_eq_true_eq, RowBit, and_assoc]

theorem State.drawnSprite_zero : s.drawnSprite x y 0 = (s.plane, false) := by
  have hlen : (s.spriteBytes y 0).length = 0 := (s.length_spriteBytes y 0).trans (Nat.zero_min _)
  have hempty : s.spriteBytes y 0 = [] := List.eq_nil_of_length_eq_zero hlen
  rw [State.drawnSprite, hempty, drawRows]

/-! ### The instruction -/

variable {s y n}

theorem exec_drw_ok (h : SpriteInRange s y n) : exec (.drw x y n) s =
    .next ((s.setPlane (s.drawnSprite x y n).1).setFlag (s.drawnSprite x y n).2) := by
  simp only [exec, execDrw, State.memRead_ok s s.i (spriteRows n (anchorRow (s.getV y))) h]
  rfl

theorem exec_drw_fault (h : ¬SpriteInRange s y n) :
    exec (.drw x y n) s = .next (faulted s 2 (s.pc - 2) (offending s.i)) := by
  obtain ⟨hrows, hpast⟩ := not_or.mp h
  obtain ⟨k, hk⟩ := Nat.exists_eq_succ_of_ne_zero hrows
  have hread : s.memRead s.i (spriteRows n (anchorRow (s.getV y))) = .error (offending s.i) := by
    rw [spriteRows, anchorRow, hk]
    exact s.memRead_pastMemory (by omega)
  simp only [exec, execDrw, hread, handlerFault_memOutOfRange]

variable (s y) in
theorem exec_drw_zero : exec (.drw x y 0) s = .next (s.setV 15 0) := by
  have hrange : SpriteInRange s y 0 := .inl (Nat.zero_min _)
  rw [exec_drw_ok x hrange, State.drawnSprite_zero]
  rfl

/-! ### The sprite of a state that differs in VF and the plane -/

variable {x} {t : State}

theorem spriteBit_congr (hx : t.getV x = s.getV x) (hy : t.getV y = s.getV y)
    (h : t = { s with v := t.v, plane := t.plane }) : spriteBit t x y n = spriteBit s x y n := by
  have hi : t.i = s.i := by rw [h]
  have hmem : t.mem = s.mem := by rw [h]
  funext c r
  simp only [spriteBit, hx, hy, hi, hmem]

theorem spriteInRange_congr (hy : t.getV y = s.getV y) (h : t = { s with v := t.v, plane := t.plane }) :
    SpriteInRange t y n ↔ SpriteInRange s y n := by
  have hi : t.i = s.i := by rw [h]
  simp only [SpriteInRange, hy, hi]

end

end Sys2Proof.Machine
end

section
/-!
SUPPORT. The obligations of `44_display.md`.
-/

namespace Sys2Proof.Machine

open Sys2Proof.Claims

/-- Settles O35: the rows read and drawn are the clipped sprite, by `spriteBit_eq`. -/
theorem drawIsExclusiveOr : Obligations.DrawIsExclusiveOr := by
  intro x y n s h
  refine ⟨_, exec_drw_ok x h, s.dispIsSet_drawnSprite x y n, ?_, fun r hr => State.getV_setFlag_of_ne _ _ hr, rfl⟩
  rw [State.getV_setFlag_vf]
  exact flagByte_eq_bit (s.drawnSprite_collides_iff x y n)

/-- Settles O36. -/
theorem drawOutOfRangeAndEmptySprite : Obligations.DrawOutOfRangeAndEmptySprite := fun x y _ s =>
  ⟨exec_drw_fault x, _, exec_drw_zero s x y, writesRegister_setV s 15 0⟩

/-- Settles O37: both draws flip the same pixels, since the first leaves `V[X]`, `V[Y]`, `I` and memory. -/
theorem drawTwiceRestoresPlane : Obligations.DrawTwiceRestoresPlane := by
  intro x y n s t hx hy hrange hdraw
  obtain ⟨t', hdraw', htPlane, htFlag, htRegs, htFrame⟩ := drawIsExclusiveOr x y n s hrange
  obtain rfl : t' = t := Host.Outcome.next.inj (hdraw'.symm.trans hdraw)
  have hbits := spriteBit_congr (n := n) (htRegs x hx) (htRegs y hy) htFrame
  have hrange' := (spriteInRange_congr (htRegs y hy) htFrame).mpr hrange
  obtain ⟨u, hu, huPlane, huFlag, -⟩ := drawIsExclusiveOr x y n t' hrange'
  refine ⟨⟨u, hu, plane_ext fun c r => ?_, huFlag.trans (bit_congr ?_)⟩, fun hclear => ?_⟩
  · rw [huPlane, htPlane, hbits, Bool.xor_assoc, Bool.xor_self, Bool.xor_false]
  · refine exists_congr fun c => exists_congr fun r => ?_
    rw [hbits]
    refine and_congr_right fun hb => ?_
    rw [htPlane, hb, Bool.xor_true, Bool.not_eq_true']
  · rw [htFlag]
    refine if_neg ?_
    rintro ⟨c, r, -, hlit⟩
    exact Bool.false_ne_true ((hclear c r).symm.trans hlit)

/-- Settles O34. -/
theorem clearTurnsEveryPixelOff : Obligations.ClearTurnsEveryPixelOff := fun s =>
  ⟨_, exec_cls s, dispIsSet_dispClear, rfl⟩

end Sys2Proof.Machine
end

section
/-!
SUPPORT. What the keypad and timer instructions answer (rules R230 to R236): SKP and SKNP with a key number in `V[X]`
and above it, the moves to and from the timers, and the register a key delivery leaves.
-/

namespace Sys2Proof.Machine

open Sys2Proof.Claims

/-! ### A skip as a value of `PC` (R25) -/

theorem State.skipIf_eq (s : State) (c : Bool) :
    s.skipIf c = { s with pc := if c = true then s.pc + 2 else s.pc } := by
  cases c <;> rfl

theorem State.skipIf_not_eq (s : State) (c : Bool) :
    s.skipIf (!c) = { s with pc := if c = true then s.pc else s.pc + 2 } := by
  cases c <;> rfl

/-! ### SKP and SKNP (R230, R231) -/

section

variable {x : Nibble} {s : State}

theorem exec_skp_key (h : (s.getV x).toNat ≤ 15) :
    exec (.skp x) s = .next (s.draw.skipIf (Config.keyDown s.draws ((s.getV x).setWidth 4))) := by
  simp only [exec, execSkp, keyOf_some _ h, State.keyPressed]

theorem exec_sknp_key (h : (s.getV x).toNat ≤ 15) :
    exec (.sknp x) s = .next (s.draw.skipIf (!Config.keyDown s.draws ((s.getV x).setWidth 4))) := by
  simp only [exec, execSknp, keyOf_some _ h, State.keyPressed]

/-- R251, R257: the fault of a key number out of range carries cause 5 and the register's value. -/
theorem handlerFault_keyIndexOutOfRange (s : State) (b : Byte) :
    handlerFault s .keyIndexOutOfRange (zextByte b) = .next (faulted s 5 (s.pc - 2) (b.setWidth 16)) := rfl

theorem exec_skp_fault (h : 15 < (s.getV x).toNat) :
    exec (.skp x) s = .next (faulted s 5 (s.pc - 2) ((s.getV x).setWidth 16)) := by
  simp only [exec, execSkp, keyOf_none _ h, handlerFault_keyIndexOutOfRange]

theorem exec_sknp_fault (h : 15 < (s.getV x).toNat) :
    exec (.sknp x) s = .next (faulted s 5 (s.pc - 2) ((s.getV x).setWidth 16)) := by
  simp only [exec, execSknp, keyOf_none _ h, handlerFault_keyIndexOutOfRange]

end

/-! ### FX07, FX0A, FX15 and FX18 (R232, R233, R235, R236) -/

theorem exec_ldVxDt (x : Nibble) (s : State) : exec (.ldVxDt x) s = .next (s.setV x s.dt) := rfl

theorem exec_ldVxKey (x : Nibble) (s : State) : exec (.ldVxKey x) s = .next (s.park x) := rfl

theorem exec_ldDtVx (x : Nibble) (s : State) : exec (.ldDtVx x) s = .next (s.setDt (s.getV x)) := rfl

theorem exec_ldStVx (x : Nibble) (s : State) : exec (.ldStVx x) s = .next (s.setSt (s.getV x)) := rfl

/-! ### The key delivery step (R44, R234) -/

theorem toNat_zextKey (k : Nibble) : (zextKey k).toNat = k.toNat :=
  BitVec.toNat_setWidth_of_le (by decide)

/-- A step whose turn is a key event delivers it. -/
theorem step_keyEvent (k : Nibble) (s : State) (turns : List Turn) :
    step { s with schedule := .keyEvent k :: turns } = .next (deliverKey k { s with schedule := turns }) := by
  rw [step_cons _ _ turns rfl]
  rfl

end Sys2Proof.Machine
end

section
/-!
SUPPORT. The obligations of `45_keypad_timers.md`.
-/

namespace Sys2Proof.Machine

open Sys2Proof.Claims

/-- Settles O38: each skips, after the one poll, on the port's answer or on its negation. -/
theorem keySkipsFollowThePort : Obligations.KeySkipsFollowThePort := by
  intro x s h
  constructor
  · rw [exec_skp_key h, State.skipIf_eq]
    rfl
  · rw [exec_sknp_key h, State.skipIf_not_eq]
    rfl

/-- Settles O39. -/
theorem keyNumberAbove15Halts : Obligations.KeyNumberAbove15Halts := fun _ _ h =>
  ⟨exec_skp_fault h, exec_sknp_fault h⟩

/-- Settles O40. -/
theorem timerMoves : Obligations.TimerMoves := fun x s =>
  ⟨⟨_, exec_ldVxDt x s, writesRegister_setV s x s.dt⟩, exec_ldDtVx x s, exec_ldStVx x s⟩

/-- Settles O41: a key delivered is one register written, by `writesRegister_setV`, and `RUN` set back. -/
theorem keyWaitAndKeyDelivery : Obligations.KeyWaitAndKeyDelivery := by
  refine ⟨exec_ldVxKey, fun k s turns => ?_⟩
  rw [step_keyEvent]
  constructor
  · intro hwait
    rw [deliverKey_waiting k { s with schedule := turns } hwait]
    obtain ⟨hkey, hother, -⟩ := writesRegister_setV s s.waitReg (zextKey k)
    exact ⟨_, rfl, (congrArg BitVec.toNat hkey).trans (toNat_zextKey k), hother, rfl⟩
  · intro hrun
    rw [deliverKey_dropped k { s with schedule := turns } hrun]

end Sys2Proof.Machine
end

section
/-!
SUPPORT. What the two ticks answer (rules R263, R264), that `DT` matters to no instruction but FX07 and FX15 (R265), and
which instruction halts the core when, with what record (rules R250 to R257).
-/

namespace Sys2Proof.Machine

open Sys2Proof.Claims

/-! ### The delay tick (R263) -/

/-- A step whose turn is a delay tick takes it. -/
theorem step_delayTick (s : State) (turns : List Turn) : step { s with schedule := .delayTick :: turns } =
    .next { s with schedule := turns, dt := BitVec.ofNat 8 (s.dt.toNat - 1) } := by
  rw [step_cons _ _ turns rfl, takeTurn, delayTick_eq]

/-- A run of one more step starts with that step. -/
theorem run_succ_of_step (M : Host.Core) {s t : M.State} (n : Nat) (h : M.step s = .next t) :
    M.run (n + 1) s = M.run n t := by
  rw [Host.Core.run, h]

/-- The same of this machine, in its own names. -/
theorem core_run_succ {s t : State} (n : Nat) (h : step s = .next t) :
    Sys2Proof.core.run (n + 1) s = Sys2Proof.core.run n t :=
  run_succ_of_step Sys2Proof.core (s := s) (t := t) n h

/-- Taking one from a byte and then `n`, each clamped at 0, is taking `n + 1`. -/
theorem toNat_ofNat_sub_one_sub (b : Byte) (n : Nat) :
    (BitVec.ofNat 8 (b.toNat - 1)).toNat - n = b.toNat - (n + 1) := by
  have hb := b.isLt
  rw [BitVec.toNat_ofNat]
  omega

/-! ### The sound tick (R264, D15) -/

theorem soundTick_silent {s : State} (h : s.st = 0) : soundTick s = s.emit .audioStop := by
  simp only [soundTick, h, if_true]

theorem soundTick_last {s : State} (h : s.st = 1) :
    soundTick s = ((s.setSt 0).emit .audioPlay).emit .audioStop := by
  simp only [soundTick, h]
  rfl

theorem soundTick_sounding {s : State} (h0 : s.st ≠ 0) (h1 : s.st ≠ 1) :
    soundTick s = (s.setSt (s.st - 1)).emit .audioPlay := by
  have hleft : s.st - 1 ≠ 0 := fun e => h1 (sub_eq_zero.mp e)
  simp only [soundTick, if_neg h0, State.emit_st, State.setSt_st, if_neg hleft]

/-- R264, R267: what the sound tick does to `ST` and to the Audio port, at 0, at 1 and above. -/
theorem soundTick_spec (s : State) : (soundTick s).st.toNat = s.st.toNat - 1 ∧
    (soundTick s).outputs = (if s.st.toNat = 0 then [.audioStop] else if s.st.toNat = 1 then [.audioStop, .audioPlay]
      else [.audioPlay]) ++ s.outputs ∧
    (toneOn (soundTick s).outputs = true ↔ (soundTick s).st ≠ 0) := by
  by_cases h0 : s.st = 0
  · rw [soundTick_silent h0]
    simp [toneOn, h0]
  · by_cases h1 : s.st = 1
    · rw [soundTick_last h1]
      simp [toneOn, h1]
    · have hleft : s.st - 1 ≠ 0 := fun e => h1 (sub_eq_zero.mp e)
      have h0' : s.st.toNat ≠ 0 := fun e => h0 (BitVec.eq_of_toNat_eq e)
      have h1' : s.st.toNat ≠ 1 := fun e => h1 (BitVec.eq_of_toNat_eq e)
      rw [soundTick_sounding h0 h1, if_neg h0', if_neg h1']
      exact ⟨BitVec.toNat_sub_of_le (Nat.one_le_iff_ne_zero.mpr h0'), rfl, iff_of_true rfl hleft⟩

/-- A step whose turn is a sound tick takes it. -/
theorem step_soundTick (s : State) (turns : List Turn) : step { s with schedule := .soundTick :: turns } =
    .next (soundTick { s with schedule := turns }) := by
  rw [step_cons _ _ turns rfl]
  rfl

/-! ### Instructions with another value in `DT` (R265) -/

theorem State.skipIf_setDt (s : State) (b : Byte) (c : Bool) : (s.setDt b).skipIf c = (s.skipIf c).setDt b := by
  cases c <;> rfl

theorem State.setRangeV_setDt (s : State) (b : Byte) (k : Nat) (bytes : List Byte) :
    (s.setDt b).setRangeV k bytes = (s.setRangeV k bytes).setDt b := by
  induction bytes generalizing s k with
  | nil => rfl
  | cons c cs ih => exact ih (s.setV (BitVec.ofNat 4 k) c) (k + 1)

/-- R265: an instruction that neither reads nor writes `DT` does the same with any value there, and leaves it. -/
theorem exec_setDt {i : Instr} (s : State) (b : Byte) (hread : ∀ x, i ≠ .ldVxDt x) (hwrite : ∀ x, i ≠ .ldDtVx x) :
    ∃ t, exec i s = .next t ∧ exec i (s.setDt b) = .next (t.setDt b) := by
  cases i with
  | ret =>
    by_cases hd : 0 < s.depth.val
    · exact ⟨_, exec_ret_of_pop (s.pop_some hd), exec_ret_of_pop ((s.setDt b).pop_some hd)⟩
    · have hempty : s.depth.val = 0 := by omega
      exact ⟨_, exec_ret_underflow hempty, exec_ret_underflow (s := s.setDt b) hempty⟩
  | call nnn =>
    by_cases hd : s.depth.val < 32
    · exact ⟨_, exec_call_of_push nnn (s.push_some s.pc hd),
        exec_call_of_push nnn ((s.setDt b).push_some s.pc hd)⟩
    · have hfull : s.depth.val = 32 := by omega
      exact ⟨_, exec_call_overflow nnn hfull, exec_call_overflow (s := s.setDt b) nnn hfull⟩
  | seImm | sneImm | seReg | sneReg => exact ⟨_, rfl, congrArg Host.Outcome.next (s.skipIf_setDt b _)⟩
  | skp x =>
    by_cases hkey : (s.getV x).toNat ≤ 15
    · exact ⟨_, exec_skp_key hkey,
        (exec_skp_key (s := s.setDt b) hkey).trans (congrArg Host.Outcome.next (s.draw.skipIf_setDt b _))⟩
    · have hbig : 15 < (s.getV x).toNat := by omega
      exact ⟨_, exec_skp_fault hbig, exec_skp_fault (s := s.setDt b) hbig⟩
  | sknp x =>
    by_cases hkey : (s.getV x).toNat ≤ 15
    · exact ⟨_, exec_sknp_key hkey,
        (exec_sknp_key (s := s.setDt b) hkey).trans (congrArg Host.Outcome.next (s.draw.skipIf_setDt b _))⟩
    · have hbig : 15 < (s.getV x).toNat := by omega
      exact ⟨_, exec_sknp_fault hbig, exec_sknp_fault (s := s.setDt b) hbig⟩
  | drw x y n =>
    by_cases hrows : SpriteInRange s y n
    · exact ⟨_, exec_drw_ok x hrows, exec_drw_ok (s := s.setDt b) x hrows⟩
    · exact ⟨_, exec_drw_fault x hrows, exec_drw_fault (s := s.setDt b) x hrows⟩
  | bcd x =>
    by_cases hfits : s.i.toNat + 2 ≤ 0xFFF
    · exact ⟨_, exec_bcd_ok s x hfits, exec_bcd_ok (s.setDt b) x hfits⟩
    · have hpast : 0xFFF < s.i.toNat + 2 := by omega
      exact ⟨_, exec_bcd_fault s x hpast, exec_bcd_fault (s.setDt b) x hpast⟩
  | storeRegs x =>
    by_cases hfits : s.i.toNat + x.toNat ≤ 0xFFF
    · exact ⟨_, exec_storeRegs_ok s hfits, exec_storeRegs_ok (s.setDt b) hfits⟩
    · have hpast : 0xFFF < s.i.toNat + x.toNat := by omega
      exact ⟨_, exec_storeRegs_fault s x hpast, exec_storeRegs_fault (s.setDt b) x hpast⟩
  | loadRegs x =>
    by_cases hfits : s.i.toNat + x.toNat ≤ 0xFFF
    · refine ⟨_, exec_loadRegs_ok s x hfits, (exec_loadRegs_ok (s.setDt b) x hfits).trans ?_⟩
      rw [State.setRangeV_setDt]
      rfl
    · have hpast : 0xFFF < s.i.toNat + x.toNat := by omega
      exact ⟨_, exec_loadRegs_fault s x hpast, exec_loadRegs_fault (s.setDt b) x hpast⟩
  | ldVxDt x => exact absurd rfl (hread x)
  | ldDtVx x => exact absurd rfl (hwrite x)
  | _ => exact ⟨_, rfl, rfl⟩

/-! ### The handler faults (R250 to R257) -/

/-- What the fault of an instruction in the state `s` records: its cause and its information. -/
inductive HandlerFault (s : State) : Instr → BitVec 3 → Word → Prop where
  /-- Code 2 (R254): FX33, FX55, FX65 and DXYN. -/
  | memOutOfRange {i : Instr}
      (hi : (∃ x, i = .bcd x ∨ i = .storeRegs x ∨ i = .loadRegs x) ∨ ∃ x y n, i = .drw x y n) :
      HandlerFault s i 2 (offending s.i)
  /-- Code 3 (R255): 2NNN with 32 frames in use. -/
  | stackOverflow (nnn : Addr12) (hsp : s.sp = 31) : HandlerFault s (.call nnn) 3 0
  /-- Code 4 (R256): 00EE with none. -/
  | stackUnderflow (hsp : s.sp = -1) : HandlerFault s .ret 4 0
  /-- Code 5 (R257): EX9E and EXA1. -/
  | keyIndexOutOfRange {i : Instr} (x : Nibble) (hi : i = .skp x ∨ i = .sknp x) (hkey : 15 < (s.getV x).toNat) :
      HandlerFault s i 5 ((s.getV x).setWidth 16)

/-- R250, R252, R259: an instruction either raises its fault, which is all it does, or does not halt the core. -/
theorem exec_faults_or_goes_on (i : Instr) (s : State) :
    (∃ cause info, HandlerFault s i cause info ∧ exec i s = .next (faulted s cause (s.pc - 2) info)) ∨
      ∃ t, exec i s = .next t ∧ (t.run = .halted → s.run = .halted) := by
  cases i with
  | ret =>
    by_cases hd : 0 < s.depth.val
    · exact .inr ⟨_, exec_ret_of_pop (s.pop_some hd), id⟩
    · have hempty : s.depth.val = 0 := by omega
      exact .inl ⟨_, _, .stackUnderflow (s.sp_eq_neg_one_iff.mpr hempty), exec_ret_underflow hempty⟩
  | call nnn =>
    by_cases hd : s.depth.val < 32
    · exact .inr ⟨_, exec_call_of_push nnn (s.push_some s.pc hd), id⟩
    · have hfull : s.depth.val = 32 := by omega
      exact .inl ⟨_, _, .stackOverflow nnn (s.sp_eq_31_iff.mpr hfull), exec_call_overflow nnn hfull⟩
  | seImm | sneImm | seReg | sneReg => exact .inr ⟨_, rfl, (s.skipIf_run _ ▸ ·)⟩
  | skp x =>
    by_cases hkey : (s.getV x).toNat ≤ 15
    · exact .inr ⟨_, exec_skp_key hkey, (s.draw.skipIf_run _ ▸ ·)⟩
    · have hbig : 15 < (s.getV x).toNat := by omega
      exact .inl ⟨_, _, .keyIndexOutOfRange x (.inl rfl) hbig, exec_skp_fault hbig⟩
  | sknp x =>
    by_cases hkey : (s.getV x).toNat ≤ 15
    · exact .inr ⟨_, exec_sknp_key hkey, (s.draw.skipIf_run _ ▸ ·)⟩
    · have hbig : 15 < (s.getV x).toNat := by omega
      exact .inl ⟨_, _, .keyIndexOutOfRange x (.inr rfl) hbig, exec_sknp_fault hbig⟩
  | drw x y n =>
    by_cases hrows : SpriteInRange s y n
    · exact .inr ⟨_, exec_drw_ok x hrows, id⟩
    · exact .inl ⟨_, _, .memOutOfRange (.inr ⟨x, y, n, rfl⟩), exec_drw_fault x hrows⟩
  | bcd x =>
    by_cases hfits : s.i.toNat + 2 ≤ 0xFFF
    · exact .inr ⟨_, exec_bcd_ok s x hfits, id⟩
    · exact .inl ⟨_, _, .memOutOfRange (.inl ⟨x, .inl rfl⟩), exec_bcd_fault s x (by omega)⟩
  | storeRegs x =>
    by_cases hfits : s.i.toNat + x.toNat ≤ 0xFFF
    · exact .inr ⟨_, exec_storeRegs_ok s hfits, id⟩
    · exact .inl ⟨_, _, .memOutOfRange (.inl ⟨x, .inr (.inl rfl)⟩), exec_storeRegs_fault s x (by omega)⟩
  | loadRegs x =>
    by_cases hfits : s.i.toNat + x.toNat ≤ 0xFFF
    · refine .inr ⟨_, exec_loadRegs_ok s x hfits, ?_⟩
      rw [State.setRangeV_eq]
      exact id
    · exact .inl ⟨_, _, .memOutOfRange (.inl ⟨x, .inr (.inr rfl)⟩), exec_loadRegs_fault s x (by omega)⟩
  | ldVxKey x => exact .inr ⟨_, rfl, nofun⟩
  | _ => exact .inr ⟨_, rfl, id⟩

/-! ### The unmatched word (R124) -/

theorem exec_nopUnmatched (w : Word) (s : State) : exec (.nopUnmatched w) s = .next (s.emit (.warn w)) := rfl

end Sys2Proof.Machine
end

section
/-!
SUPPORT. The obligations of `60_exceptions.md`.
-/

namespace Sys2Proof.Machine

open Sys2Proof.Claims

/-- Settles O42, by induction on the number of ticks: one tick, then the rest from the value it leaves. -/
theorem delayTicksDecayToZero : Obligations.DelayTicksDecayToZero := by
  intro n
  induction n with
  | zero =>
    intro s turns
    rw [List.replicate_zero, List.nil_append, Nat.sub_zero, BitVec.ofNat_toNat, BitVec.setWidth_eq]
    rfl
  | succ n ih =>
    intro s turns
    have hrest := ih { s with dt := BitVec.ofNat 8 (s.dt.toNat - 1) } turns
    rw [toNat_ofNat_sub_one_sub] at hrest
    rw [List.replicate_succ, List.cons_append, core_run_succ n (step_delayTick s _)]
    exact hrest

/-- Settles O43. -/
theorem soundTickDrivesAudio : Obligations.SoundTickDrivesAudio := by
  intro s turns
  obtain ⟨hst, houtputs, htone⟩ := soundTick_spec { s with schedule := turns }
  exact ⟨_, step_soundTick s turns, hst, houtputs, htone, soundTick_eq _⟩

/-- Settles O44: the instruction does not see the ticked `DT` and leaves it to be ticked after. -/
theorem delayTickCommutesWithInstructions : Obligations.DelayTickCommutesWithInstructions := by
  intro i s t hread hwrite h
  have hdt : t.dt = s.dt := (exec_deviceEffect h).dt_eq hwrite
  obtain ⟨u, hu, hticked⟩ := exec_setDt s (BitVec.ofNat 8 (s.dt.toNat - 1)) hread hwrite
  rw [h] at hu
  cases hu
  rw [delayTick_eq, delayTick_eq, hdt]
  exact hticked

/-- Settles O49: an instruction that does not raise its fault does not halt a running core. -/
theorem handlerFaultsArePrecise : Obligations.HandlerFaultsArePrecise := by
  intro i s t hrun h ht
  rcases exec_faults_or_goes_on i s with ⟨cause, info, hfault, hexec⟩ | ⟨u, hexec, hlive⟩
  · rw [hexec] at h
    cases h
    refine ⟨rfl, ?_⟩
    cases hfault with
    | memOutOfRange hi => exact .inl ⟨rfl, hi, rfl⟩
    | stackOverflow nnn hsp => exact .inr (.inl ⟨rfl, ⟨nnn, rfl⟩, hsp, rfl⟩)
    | stackUnderflow hsp => exact .inr (.inr (.inl ⟨rfl, rfl, hsp, rfl⟩))
    | keyIndexOutOfRange x hi hkey => exact .inr (.inr (.inr ⟨rfl, x, hi, hkey, rfl⟩))
  · rw [hexec] at h
    cases h
    exact absurd (hlive ht) (by simp [hrun])

/-- Settles O50: of the turns' effects, those that need a running or a waiting Executor cannot occur, and of the others
the reset alone does more than move the timers and command the Audio port. -/
theorem onlyResetLeavesHalted : Obligations.OnlyResetLeavesHalted := by
  intro s t hhalted h
  obtain ⟨a, turns, hsched, he⟩ := step_effect h
  have hrun : ({ s with schedule := turns } : State).run = .halted := hhalted
  cases he with
  | fetchFault _ hr => exact absurd (hr.symm.trans hrun) nofun
  | instruction _ hr => exact absurd (hr.symm.trans hrun) nofun
  | idle hr => exact absurd (hr.symm.trans hrun) nofun
  | keyDelivered _ hr => exact absurd (hr.symm.trans hrun) nofun
  | delayTick => exact .inr rfl
  | soundTick => exact .inr rfl
  | keyDropped => exact .inr rfl
  | reset rom =>
    obtain hcons | ⟨-, hexec, -⟩ := hsched
    · exact .inl ⟨rom, by rw [hcons, List.head?_cons], rfl⟩
    · cases hexec

/-- Settles O10: the word's decoding is the unmatched instruction, by `decodeWord_eq_nopUnmatched_iff`. -/
theorem unmatchedWordWarnsAndContinues : Obligations.UnmatchedWordWarnsAndContinues := by
  refine ⟨exec_nopUnmatched, fun s turns w hrun hpc hword hw => ?_⟩
  rw [(stepRunsDecodedInstruction s turns hrun hpc).1, hword, (decodeWord_eq_nopUnmatched_iff w).mpr hw,
    exec_nopUnmatched]
  rfl

end Sys2Proof.Machine
end

section
/-!
SUPPORT. The launch and the reset input (rules R290 to R299): the loader's two answers, what each byte of the image
reads as, and what a reset turn makes of a launch.
-/

namespace Sys2Proof.Machine

/-! ### The loader's answers (R274, R296) -/

/-- R293: a ROM that fits is launched with reset registers. -/
theorem launch_eq_ok {rom : List Byte} (h : rom.length ≤ 3584) :
    launch rom = .ok { State.reset with mem := loadImage rom } := if_neg (Nat.not_lt.mpr h)

/-- R274, R296: a ROM that does not fit is rejected. -/
theorem launch_eq_error {rom : List Byte} (h : 3584 < rom.length) : launch rom = .error .romTooLarge := if_pos h

/-! ### The memory image (R297 to R299) -/

theorem length_defaultFont : Config.defaultFont.length = 80 := rfl

/-- R298, R299: an unlisted address reads as the font at 0x050 to 0x09F and as the fill elsewhere. -/
theorem Memory.unlisted_eq (a : Nat) : Memory.unlisted a =
    if 0x50 ≤ a ∧ a ≤ 0x9F then Config.defaultFont.getD (a - 0x50) 0 else 0 := by
  have hdef : Memory.unlisted a = if 0x50 ≤ a then Config.defaultFont.getD (a - 0x50) 0 else 0 := rfl
  rw [hdef]
  by_cases hlow : 0x50 ≤ a
  · by_cases hhigh : a ≤ 0x9F
    · rw [if_pos hlow, if_pos ⟨hlow, hhigh⟩]
    · have hpast : Config.defaultFont.length ≤ a - 0x50 := by rw [length_defaultFont]; omega
      rw [if_pos hlow, if_neg (by omega), List.getD_eq_default _ _ hpast]
  · rw [if_neg hlow, if_neg (by omega)]

/-- R297: inside the program area the image reads as the ROM, elsewhere as memory that lists nothing. -/
theorem readByte_loadImage {rom : List Byte} (hrom : rom.length ≤ 3584) (a : Nat) : (loadImage rom).readByte a =
    if 0x200 ≤ a ∧ a < 0x200 + rom.length then rom.getD (a - 0x200) 0 else Memory.unlisted a := by
  have hempty : Memory.wf [] := ⟨List.Pairwise.nil, nofun⟩
  have hfits : 0x200 + rom.length ≤ memSize := by rw [memSize]; omega
  have hbytes := Memory.readByte_writeBytes hempty 0x200 rom hfits a
  have himage : loadImage rom = Memory.writeBytes [] 0x200 rom := rfl
  rw [himage, hbytes]
  split
  · next hin => rw [List.getD_eq_getElem rom 0 (by omega)]
  · rfl

/-! ### The reset input (R290, R292) -/

/-- R290: a reset turn goes on from the launched state, with the model's own fields of the old one (log 20). -/
theorem resetTurn_of_launch_ok {rom : List Byte} {l : State} (s : State) (h : launch rom = .ok l) :
    resetTurn rom s = .next { l with schedule := s.schedule, draws := s.draws, outputs := s.outputs } := by
  simp only [resetTurn, h]

/-- R274: a reset turn with a rejected ROM stops the model. -/
theorem resetTurn_of_launch_error {rom : List Byte} (s : State) (h : launch rom = .error .romTooLarge) :
    resetTurn rom s = .fault .romTooLarge := by
  simp only [resetTurn, h]

/-- With a reset scheduled, a step is the reset turn, whatever the core was doing. -/
theorem step_reset (s : State) (rom : List Byte) (turns : List Turn) :
    step { s with schedule := .reset rom :: turns } = resetTurn rom { s with schedule := turns } :=
  step_cons _ (.reset rom) turns rfl

end Sys2Proof.Machine
end

section
/-!
SUPPORT. The obligations of `70_reset_and_hazards.md`.
-/

namespace Sys2Proof.Machine

open Sys2Proof.Claims

/-- Settles O53: the font's range and the program area do not meet, so the image may be asked about either first. -/
theorem launchBuildsMemoryImage : Obligations.LaunchBuildsMemoryImage := by
  intro rom
  refine ⟨fun hrom => ⟨_, launch_eq_ok hrom, rfl, fun a _ => ?_⟩, launch_eq_error⟩
  rw [readByte_loadImage hrom, Memory.unlisted_eq]
  by_cases hfont : 0x50 ≤ a ∧ a ≤ 0x9F
  · rw [if_neg (by omega), if_pos hfont, if_pos hfont]
  · rw [if_neg hfont, if_neg hfont]

/-- Settles O54: a step is the reset turn, which answers as the launch does. -/
theorem resetInputIsLaunch : Obligations.ResetInputIsLaunch := by
  intro rom s turns
  rw [step_reset]
  exact ⟨fun l => resetTurn_of_launch_ok _, resetTurn_of_launch_error _⟩

end Sys2Proof.Machine
end
